-- ==== Sys2Proof/Word.lean ====
section
/-! DEFINITION. The Word of the CORE: the unit of instructions, data, registers and addresses. -/

namespace Sys2Proof

/-- A Word: 16 bits, bit 15 the most significant (00_scope R6, 10_state R11). -/
abbrev Word := BitVec 16

end Sys2Proof
end

