-- ==== Sys2Proof/Config.lean ====
section
/-! DEFINITION. The implementation parameters of 00_scope R4. All have a value in the spec; nothing is left free. -/

namespace Sys2Proof.Config

/-- `XLEN`, bits in a Word (R4). -/
abbrev xlen : Nat := 16

/-- `NREG`, general registers, numbered 0 to 7 (R4, R11). -/
abbrev nreg : Nat := 8

/-- `MEMCAP`, Words of memory (R4, R16). -/
abbrev memCap : Nat := 16384

/-- `OPBITS`, width of the opcode field (R4, R46). -/
abbrev opBits : Nat := 3

/-- `REGBITS`, width of a register field (R4, R46). -/
abbrev regBits : Nat := 3

/-- `IMMBITS`, width of the signed immediate field (R4, R51). -/
abbrev immBits : Nat := 5

/-- `PCBITS`, width of the program counter (R4, R14). -/
abbrev pcBits : Nat := 16

/-- `BPBITS`, width of the breakpoint address register (R4, R19). -/
abbrev bpBits : Nat := 16

/-- `NBREAK`, breakpoints (R4, R19). -/
abbrev nbreak : Nat := 1

/-- `LOAD_BASE`, where a loaded program starts (R4, R100). -/
abbrev loadBase : Nat := 0

/-- `RESET_PC` (R4, R137). -/
abbrev resetPc : Word := 0x0000

/-- `NOOP_WORD` (R4, R65). -/
abbrev noopWord : Word := 0x0000

/-- `HALT_WORD` (R4, R65). -/
abbrev haltWord : Word := 0xE000

/-- What an access to an address without storage does. The spec fixes one policy, so the type has one value; whoever
adds another must say what it does wherever `addressOverflow` is consulted. -/
inductive AddressOverflow where
  /-- Fatal stop: the access faults, and nothing wraps around (20_memory R37). -/
  | fatalStop
deriving DecidableEq, Repr

/-- The address-overflow policy (R4, the spec's decision D7). -/
abbrev addressOverflow : AddressOverflow := .fatalStop

/-- What register 0 is. The spec fixes one reading, so the type has one value, as above. -/
inductive RegisterZero where
  /-- Hardwired to zero: reads 0, writes discarded (10_state R11). -/
  | hardwiredZero
deriving DecidableEq, Repr

/-- r0 (R4, the spec's decision D5). -/
abbrev r0 : RegisterZero := .hardwiredZero

/-- `HIST_DEPTH`: `none` is the unbounded stack R21 tells a model to take; `some n` is the capped ring
buffer of an implementation. DESIGN CHOICE, unsafe against a finite implementation: log entry 4. -/
def histDepth : Option Nat := none

end Sys2Proof.Config
end

