-- ==== Sys2Proof/Syntax.lean ====
section
/-! DEFINITION. The instructions, one constructor per row of spec/opcode_table.json. -/

namespace Sys2Proof

/-- The eight register names `r0` to `r7` (10_state R11, R12). -/
inductive Reg where
  | r0 | r1 | r2 | r3 | r4 | r5 | r6 | r7
deriving DecidableEq, Repr

/-- The immediate field `imm5`, IMMBITS = 5 bits read as two's complement (30_encoding R51). -/
abbrev Imm5 := BitVec 5

/-- The instructions (30_encoding R52). Operands stand in the spec's order RX, RY, RZ or imm5. -/
inductive Instr where
  /-- `add RX, RY, RZ` (R70). -/
  | add (rx ry rz : Reg)
  /-- `nand RX, RY, RZ` (R71). -/
  | nand (rx ry rz : Reg)
  /-- `addi RX, RY, imm` (R72). -/
  | addi (rx ry : Reg) (imm : Imm5)
  /-- `lw RX, imm(RY)` (R75). -/
  | lw (rx ry : Reg) (imm : Imm5)
  /-- `sw RX, imm(RY)` (R76). -/
  | sw (rx ry : Reg) (imm : Imm5)
  /-- `beq RX, RY, offset` (R80). -/
  | beq (rx ry : Reg) (imm : Imm5)
  /-- `jalr RX, RY` (R81). -/
  | jalr (rx ry : Reg)
  /-- `halt` (R82). -/
  | halt
  /-- `noop`, the assembler's name of the Word 0x0000 (R73). A row of the opcode table, never an output of the
  decoder, which reads 0x0000 as `add r0, r0, r0` (R55). DESIGN CHOICE, safe: log entry 2. -/
  | noop
deriving DecidableEq, Repr

end Sys2Proof
end

