-- ==== Sys2Proof/WellFormed.lean ====
section
/-! DEFINITION. What a decoded instruction and a loadable program are. Field ranges need no check: the types
`Reg` and `Imm5` hold exactly the values the fields hold (30_encoding R46). -/

namespace Sys2Proof

/-- An instruction the decoder can yield (30_encoding R53): every one but the alias `noop` (R55). -/
def Instr.wellFormed : Instr → Bool
  | .add _ _ _ => true
  | .nand _ _ _ => true
  | .addi _ _ _ => true
  | .lw _ _ _ => true
  | .sw _ _ _ => true
  | .beq _ _ _ => true
  | .jalr _ _ => true
  | .halt => true
  | .noop => false

/-- A Word sequence that `LOAD` accepts: at most MEMCAP Words (45_host_commands R100, R101). -/
def Program.wellFormed (words : List Word) : Bool :=
  decide (words.length ≤ Config.memCap)

end Sys2Proof
end

