-- ==== Sys2Proof/Decode.lean ====
section
/-! DEFINITION. The decoder (30_encoding R53) and, after it, the encoder (R57). -/

namespace Sys2Proof

/-- What the decoder answers (R53): a decoded instruction, or `Reserved`. -/
inductive Decoded where
  | instr (i : Instr)
  | reserved
deriving DecidableEq, Repr

/-- `op`, IR[15:13] (R46). -/
def opField (ir : Word) : BitVec 3 := ir.extractLsb' 13 3

/-- `RX`, IR[12:10] (R46). -/
def rxField (ir : Word) : BitVec 3 := ir.extractLsb' 10 3

/-- `RY`, IR[9:7] (R46). -/
def ryField (ir : Word) : BitVec 3 := ir.extractLsb' 7 3

/-- `RZ`, IR[2:0] (R46). -/
def rzField (ir : Word) : BitVec 3 := ir.extractLsb' 0 3

/-- `imm5`, IR[4:0] (R46, R51). -/
def imm5Field (ir : Word) : Imm5 := ir.extractLsb' 0 5

/-- The register a 3-bit field names (10_state R12). -/
def Reg.ofField (b : BitVec 3) : Reg :=
  match b.toNat with
  | 0 => .r0
  | 1 => .r1
  | 2 => .r2
  | 3 => .r3
  | 4 => .r4
  | 5 => .r5
  | 6 => .r6
  | _ => .r7

/-- A format R Word (R47): bits 6..3 must be 0. -/
def decodeR (ir : Word) (mk : Reg → Reg → Reg → Instr) : Decoded :=
  if ir.extractLsb' 3 4 ≠ 0 then .reserved
  else .instr (mk (Reg.ofField (rxField ir)) (Reg.ofField (ryField ir)) (Reg.ofField (rzField ir)))

/-- A format I Word (R48): bits 6..5 must be 0. -/
def decodeI (ir : Word) (mk : Reg → Reg → Imm5 → Instr) : Decoded :=
  if ir.extractLsb' 5 2 ≠ 0 then .reserved
  else .instr (mk (Reg.ofField (rxField ir)) (Reg.ofField (ryField ir)) (imm5Field ir))

/-- A format J Word (R49): bits 6..0 must be 0. -/
def decodeJ (ir : Word) (mk : Reg → Reg → Instr) : Decoded :=
  if ir.extractLsb' 0 7 ≠ 0 then .reserved
  else .instr (mk (Reg.ofField (rxField ir)) (Reg.ofField (ryField ir)))

/-- A format O Word (R50): bits 12..0 must be 0. -/
def decodeO (ir : Word) (i : Instr) : Decoded :=
  if ir.extractLsb' 0 13 ≠ 0 then .reserved else .instr i

/-- The decoder, total on Words (R53). The last arm is opcode 7, the only value of `op` left. -/
def decode (ir : Word) : Decoded :=
  match (opField ir).toNat with
  | 0 => decodeR ir .add
  | 1 => decodeR ir .nand
  | 2 => decodeI ir .addi
  | 3 => decodeI ir .lw
  | 4 => decodeI ir .sw
  | 5 => decodeI ir .beq
  | 6 => decodeJ ir .jalr
  | _ => decodeO ir .halt

/-- The 3-bit number of a register (10_state R12). -/
def Reg.toField : Reg → BitVec 3
  | .r0 => 0
  | .r1 => 1
  | .r2 => 2
  | .r3 => 3
  | .r4 => 4
  | .r5 => 5
  | .r6 => 6
  | .r7 => 7

/-- `base | RX<<10 | RY<<7` (R57). -/
def encodeRegs (base : Word) (rx ry : Reg) : Word :=
  base ||| (rx.toField.zeroExtend 16 <<< 10) ||| (ry.toField.zeroExtend 16 <<< 7)

/-- The encoder (R57); `noop` is the fixed Word 0x0000 (R65, R73). -/
def encode : Instr → Word
  | .add rx ry rz => encodeRegs 0x0000 rx ry ||| rz.toField.zeroExtend 16
  | .nand rx ry rz => encodeRegs 0x2000 rx ry ||| rz.toField.zeroExtend 16
  | .addi rx ry imm => encodeRegs 0x4000 rx ry ||| imm.zeroExtend 16
  | .lw rx ry imm => encodeRegs 0x6000 rx ry ||| imm.zeroExtend 16
  | .sw rx ry imm => encodeRegs 0x8000 rx ry ||| imm.zeroExtend 16
  | .beq rx ry imm => encodeRegs 0xA000 rx ry ||| imm.zeroExtend 16
  | .jalr rx ry => encodeRegs 0xC000 rx ry
  | .halt => Config.haltWord
  | .noop => Config.noopWord

/-- The field value of an immediate in -16..15, `n mod 32` (R51). -/
def Imm5.ofInt (n : Int) : Imm5 := BitVec.ofInt 5 n

/-- The instruction the decoder reads from an opcode-table row's bits `w`, `nbits` of them, the bits above
being 0. An instruction is one Word (R45), so bit numbers of the table are bit numbers of the Word. -/
def decodeTableWord (nbits w : Nat) : Option Instr :=
  match decode (BitVec.ofNat 16 (w % 2 ^ nbits)) with
  | .instr i => some i
  | .reserved => none

end Sys2Proof
end

