-- ==== Sys2Proof/Machine/State.lean ====
section
/-! DEFINITION. The state of the CORE (10_state R10), the reasons a step can stop, and the power-on state. -/

namespace Sys2Proof.Machine

/-- The stored registers `RF[1..7]`; r0 stores nothing (10_state R11). -/
structure RegFile where
  r1 : Word
  r2 : Word
  r3 : Word
  r4 : Word
  r5 : Word
  r6 : Word
  r7 : Word
deriving DecidableEq, Repr

/-- `MEM`: (word address, Word) pairs in the canonical form of `Memory.wf`. The addressable unit is the Word,
and there is no byte (20_memory R30, R33), so a cell holds a Word. DESIGN CHOICE, safe: log entry 1. -/
abbrev Memory := List (Nat × Word)

/-- The architectural state that an instruction's transition function sees, and what an entry of `HIST` holds
(10_state R10, R21). -/
structure Arch where
  rf : RegFile
  mem : Memory
  /-- A word address, 16 bits (R14). -/
  pc : Word
deriving DecidableEq, Repr

/-- The five values of `status` (10_state R18). -/
inductive Status where
  | loaded | running | stoppedAtBreakpoint | halted | faulted
deriving DecidableEq, Repr

/-- The values of `fault_cause`, codes 0 to 4 (60_exceptions R115). -/
inductive FaultCause where
  | noFault | fetchAddress | reservedEncoding | loadAddress | storeAddress
deriving DecidableEq, Repr

/-- The complete state of the CORE (10_state R10: nothing else is state). -/
structure State where
  /-- `RF`, `MEM` and `pc`. -/
  arch : Arch
  status : Status
  /-- `bp_valid` (R19). -/
  bpValid : Bool
  /-- `bp_addr` (R19). -/
  bpAddr : Word
  /-- `fault_cause` (R20). -/
  faultCause : FaultCause
  /-- `fault_info` (R20). -/
  faultInfo : Word
  /-- `HIST`, newest entry first (R21). -/
  hist : List Arch
  /-- `IMAGE`, the most recently loaded program (R22). -/
  image : List Word
deriving DecidableEq, Repr

/-- Reasons a step could end with no next state. There are none, so the type has no constructor: the spec's
faults have a described entry (60_exceptions R119) and are next states with `status = Faulted`, and a `STEP`
in `Halted` or `Faulted` answers the same state (44_step_run R88). DESIGN CHOICE, safe: log entry 3. -/
inductive Fault where
deriving DecidableEq, Repr

/-- Reasons an instruction has no meaning here. -/
inductive Refusal where
  /-- An arm of `exec` that has no meaning yet; no arm of this model raises it. Safe. -/
  | notModelled (mnemonic : String)
deriving DecidableEq, Repr

/-- All of `RF[1..7]` zero. -/
def RegFile.zero : RegFile := ⟨0, 0, 0, 0, 0, 0, 0⟩

/-- Power-on (70_reset_and_hazards R136; the power-on column of 10_state R26). -/
def State.reset : State where
  arch := ⟨RegFile.zero, [], Config.resetPc⟩
  status := .loaded
  bpValid := false
  bpAddr := 0
  faultCause := .noFault
  faultInfo := 0
  hist := []
  image := []

end Sys2Proof.Machine
end

