-- ==== Sys2Proof/Machine/Ops.lean ====
section
/-! DEFINITION. The shared operations over registers, memory and the rollback stack; completing a step; raising
a fault. -/

namespace Sys2Proof.Machine

/-! ### Registers (10_state R11) -/

/-- `x[r]`: 0 for the hardwired register 0, else the stored value. -/
def RegFile.get (rf : RegFile) : Reg → Word
  | .r0 =>
    match Config.r0 with
    | .hardwiredZero => 0
  | .r1 => rf.r1
  | .r2 => rf.r2
  | .r3 => rf.r3
  | .r4 => rf.r4
  | .r5 => rf.r5
  | .r6 => rf.r6
  | .r7 => rf.r7

/-- `x[r] <- v`: discarded for the hardwired register 0. -/
def RegFile.set (rf : RegFile) (r : Reg) (v : Word) : RegFile :=
  match r with
  | .r0 =>
    match Config.r0 with
    | .hardwiredZero => rf
  | .r1 => { rf with r1 := v }
  | .r2 => { rf with r2 := v }
  | .r3 => { rf with r3 := v }
  | .r4 => { rf with r4 := v }
  | .r5 => { rf with r5 := v }
  | .r6 => { rf with r6 := v }
  | .r7 => { rf with r7 := v }

/-! ### Memory (20_memory R30 to R32) -/

/-- What an unlisted address reads as: 0 at power-on, and the zero fill of `LOAD` and `RESET` (R31, R36). -/
def Memory.unlisted : Word := 0

/-- The Word at address `a`. -/
def Memory.read : Memory → Nat → Word
  | [], _ => Memory.unlisted
  | (b, w) :: m, a => if a = b then w else Memory.read m a

/-- `m` with `(a, v)` in front, or without it where `v` is what an unlisted address reads as. -/
def Memory.cons (a : Nat) (v : Word) (m : Memory) : Memory :=
  if v = Memory.unlisted then m else (a, v) :: m

/-- `MEM[a] <- v`, keeping the canonical form. -/
def Memory.write : Memory → Nat → Word → Memory
  | [], a, v => Memory.cons a v []
  | (b, w) :: m, a, v =>
    if a < b then Memory.cons a v ((b, w) :: m)
    else if a = b then Memory.cons a v m
    else (b, w) :: Memory.write m a v

/-- The canonical form from address `lo` on: rising addresses below MEMCAP, no entry equal to what an unlisted
address reads as. -/
def Memory.wfFrom : Nat → Memory → Bool
  | _, [] => true
  | lo, (a, v) :: m =>
    decide (lo ≤ a) && decide (a < Config.memCap) && decide (v ≠ Memory.unlisted) && Memory.wfFrom (a + 1) m

/-- The canonical form of a memory. -/
def Memory.wf (m : Memory) : Bool := Memory.wfFrom 0 m

/-- `words` from address `a` on and zero everywhere else (45_host_commands R100). -/
def Memory.ofWords : Nat → List Word → Memory
  | _, [] => []
  | a, w :: ws => Memory.cons a w (Memory.ofWords (a + 1) ws)

/-- An address that an access can use: under the fatal-stop policy, one that has storage (20_memory R37). -/
def inRange (a : Word) : Bool :=
  match Config.addressOverflow with
  | .fatalStop => decide (a.toNat < Config.memCap)

/-! ### The architectural state -/

/-- `x[r]` (R7). -/
def Arch.reg (a : Arch) (r : Reg) : Word := a.rf.get r

/-- `x[r] <- v` (R7). -/
def Arch.setReg (a : Arch) (r : Reg) (v : Word) : Arch := { a with rf := a.rf.set r v }

/-- `MemRead(ea, 1)` (R31). -/
def Arch.readMem (a : Arch) (ea : Word) : Word := a.mem.read ea.toNat

/-- `MemWrite(ea, 1, v)` (R32). -/
def Arch.writeMem (a : Arch) (ea v : Word) : Arch := { a with mem := a.mem.write ea.toNat v }

/-- `pc <- t`. -/
def Arch.setPc (a : Arch) (t : Word) : Arch := { a with pc := t }

/-- `pc <- pc + 1 mod 65536` (10_state R14). -/
def Arch.nextPc (a : Arch) : Arch := a.setPc (a.pc + 1)

/-! ### The rollback stack (10_state R21) -/

/-- Push `e`; a stack of finite capacity keeps its newest entries. -/
def pushHistory (depth : Option Nat) (e : Arch) (h : List Arch) : List Arch :=
  match depth with
  | none => e :: h
  | some n => (e :: h).take n

/-! ### Ending a step -/

/-- Lines 6 to 8 of 44_step_run R85: push the pre-execution state, then leave `arch` and `status`. -/
def State.executed (s : State) (status : Status) (arch : Arch) : Host.Outcome State Fault Refusal :=
  .next { s with arch := arch, status := status, hist := pushHistory Config.histDepth s.arch s.hist }

/-- `raise F(info)` (60_exceptions R119): the one way a fault is taken. Control goes nowhere and nothing is saved;
there is no return from it but the host's `LOAD`, `RESET` or `REWIND` (R121). -/
def State.raise (s : State) (cause : FaultCause) (info : Word) : State :=
  { s with status := .faulted, faultCause := cause, faultInfo := info }

/-- The numeric code of a cause (60_exceptions R115). -/
def FaultCause.code : FaultCause → Nat
  | .noFault => 0
  | .fetchAddress => 1
  | .reservedEncoding => 2
  | .loadAddress => 3
  | .storeAddress => 4

/-- `status` in {Halted, Faulted}: `STEP` and `RUN` are ignored (44_step_run R88). -/
def State.stopped (s : State) : Bool :=
  match s.status with
  | .halted => true
  | .faulted => true
  | .loaded => false
  | .running => false
  | .stoppedAtBreakpoint => false

/-- The breakpoint comparator (10_state R19). -/
def State.bpHit (s : State) : Bool := s.bpValid && decide (s.arch.pc = s.bpAddr)

end Sys2Proof.Machine
end

