-- ==== Sys2Proof/Machine/Operands.lean ====
section
/-! DEFINITION. The operand forms: the immediate, the one addressing mode, the branch target, the link. -/

namespace Sys2Proof.Machine

/-- `sext_16(imm5)` (00_scope R6, 30_encoding R51). -/
def sextImm (imm : Imm5) : Word := imm.signExtend 16

/-- `EA = (x[RY] + sext_16(imm5)) mod 65536` (41_load_store R77). -/
def effectiveAddress (a : Arch) (ry : Reg) (imm : Imm5) : Word := a.reg ry + sextImm imm

/-- The target of a taken branch, `(pc + 1 + sext_16(imm5)) mod 65536` (42_control R80). -/
def branchTarget (a : Arch) (imm : Imm5) : Word := a.pc + 1 + sextImm imm

/-- The link value of `jalr`, `(pc + 1) mod 65536` (42_control R81). -/
def linkAddress (a : Arch) : Word := a.pc + 1

end Sys2Proof.Machine
end

