-- ==== Sys2Proof/Machine/Flags.lean ====
section
/-! DEFINITION. What the ALU computes. The CORE has no flag, condition code or predicate register (10_state R15),
so no operation here yields one; the only condition is the comparison of `beq`. -/

namespace Sys2Proof.Machine

/-- The sum modulo 65536; the carry out is dropped (40_alu R74). -/
def aluAdd (a b : Word) : Word := a + b

/-- The 16-bit complement of the bitwise and (40_alu R71, R74). -/
def aluNand (a b : Word) : Word := ~~~(a &&& b)

/-- 16-bit equality (42_control R80). -/
def aluEqual (a b : Word) : Bool := decide (a = b)

end Sys2Proof.Machine
end

