-- ==== Sys2Proof/Machine/Alu.lean ====
section
/-! DEFINITION. The ALU instructions (40_alu). -/

namespace Sys2Proof.Machine

/-- `add RX, RY, RZ` (R70). -/
def execAdd (rx ry rz : Reg) (s : State) : Host.Outcome State Fault Refusal :=
  s.executed .running ((s.arch.setReg rx (aluAdd (s.arch.reg ry) (s.arch.reg rz))).nextPc)

/-- `nand RX, RY, RZ` (R71). -/
def execNand (rx ry rz : Reg) (s : State) : Host.Outcome State Fault Refusal :=
  s.executed .running ((s.arch.setReg rx (aluNand (s.arch.reg ry) (s.arch.reg rz))).nextPc)

/-- `addi RX, RY, imm` (R72). -/
def execAddi (rx ry : Reg) (imm : Imm5) (s : State) : Host.Outcome State Fault Refusal :=
  s.executed .running ((s.arch.setReg rx (aluAdd (s.arch.reg ry) (sextImm imm))).nextPc)

/-- `noop` (R73): only the pc advances; a history entry is pushed like any other step's. -/
def execNoop (s : State) : Host.Outcome State Fault Refusal :=
  s.executed .running s.arch.nextPc

end Sys2Proof.Machine
end

