-- ==== Sys2Proof/Machine/Control.lean ====
section
/-! DEFINITION. Control transfer and `halt` (42_control). -/

namespace Sys2Proof.Machine

/-- `beq RX, RY, offset` (R80). -/
def execBeq (rx ry : Reg) (imm : Imm5) (s : State) : Host.Outcome State Fault Refusal :=
  s.executed .running
    (if aluEqual (s.arch.reg rx) (s.arch.reg ry) then s.arch.setPc (branchTarget s.arch imm) else s.arch.nextPc)

/-- `jalr RX, RY` (R81): the link is written first, and the target is read after it. -/
def execJalr (rx ry : Reg) (s : State) : Host.Outcome State Fault Refusal :=
  let linked := s.arch.setReg ry (linkAddress s.arch)
  s.executed .running (linked.setPc (linked.reg rx))

/-- `halt` (R82). -/
def execHalt (s : State) : Host.Outcome State Fault Refusal :=
  s.executed .halted s.arch.nextPc

end Sys2Proof.Machine
end

