-- ==== Sys2Proof/Machine/LoadStore.lean ====
section
/-! DEFINITION. The load and store instructions (41_load_store). The address check comes before the history push
(44_step_run R85 line 5, R86). -/

namespace Sys2Proof.Machine

/-- `lw RX, imm(RY)` (R75). -/
def execLw (rx ry : Reg) (imm : Imm5) (s : State) : Host.Outcome State Fault Refusal :=
  let ea := effectiveAddress s.arch ry imm
  if inRange ea then s.executed .running ((s.arch.setReg rx (s.arch.readMem ea)).nextPc)
  else .next (s.raise .loadAddress ea)

/-- `sw RX, imm(RY)` (R76). -/
def execSw (rx ry : Reg) (imm : Imm5) (s : State) : Host.Outcome State Fault Refusal :=
  let ea := effectiveAddress s.arch ry imm
  if inRange ea then s.executed .running ((s.arch.writeMem ea (s.arch.reg rx)).nextPc)
  else .next (s.raise .storeAddress ea)

end Sys2Proof.Machine
end

