-- ==== Sys2Proof/Machine/Dispatch.lean ====
section
/-! DEFINITION. The dispatch of 44_step_run R90: lines 5 to 8 of R85 for one decoded instruction. -/

namespace Sys2Proof.Machine

def exec (i : Instr) (s : State) : Host.Outcome State Fault Refusal :=
  match i with
  | .add rx ry rz => Sys2Proof.Machine.execAdd rx ry rz s
  | .nand rx ry rz => Sys2Proof.Machine.execNand rx ry rz s
  | .addi rx ry imm => Sys2Proof.Machine.execAddi rx ry imm s
  | .lw rx ry imm => Sys2Proof.Machine.execLw rx ry imm s
  | .sw rx ry imm => Sys2Proof.Machine.execSw rx ry imm s
  | .beq rx ry imm => Sys2Proof.Machine.execBeq rx ry imm s
  | .jalr rx ry => Sys2Proof.Machine.execJalr rx ry s
  | .halt => Sys2Proof.Machine.execHalt s
  | .noop => Sys2Proof.Machine.execNoop s

end Sys2Proof.Machine
end

