-- ==== Sys2Proof/Machine/Fetch.lean ====
section
/-! DEFINITION. Fetching and decoding the Word at the pc, and placing a Word where the next step fetches it. -/

namespace Sys2Proof.Machine

/-- What lines 2 to 4 of 44_step_run R85 yield. -/
inductive Fetched where
  | instr (i : Instr)
  | trap (cause : FaultCause) (info : Word)
deriving DecidableEq, Repr

/-- Fetch (20_memory R44) and decode (30_encoding R53): `STEP` lines 2 to 4 (44_step_run R85). -/
def Arch.fetch (a : Arch) : Fetched :=
  if inRange a.pc then
    match decode (a.readMem a.pc) with
    | .instr i => .instr i
    | .reserved => .trap .reservedEncoding (a.readMem a.pc)
  else .trap .fetchAddress a.pc

/-- `s` with the Word `w` where the next `STEP` fetches. A stopped machine is made steppable (`Running`, fault
registers clear) and a pc that has no storage is set to RESET_PC, since no fetch happens otherwise: log entry 6. -/
def State.placeWord (s : State) (w : Word) : State :=
  let pc := if inRange s.arch.pc then s.arch.pc else Config.resetPc
  let placed : State := { s with arch := (s.arch.setPc pc).writeMem pc w }
  if s.stopped then { placed with status := .running, faultCause := .noFault, faultInfo := 0 } else placed

end Sys2Proof.Machine
end

