-- ==== Sys2Proof/Machine/Step.lean ====
section
/-! DEFINITION. One step: the command `STEP` of 44_step_run R85, without its result value (see Commands.lean). -/

namespace Sys2Proof.Machine

/-- `STEP` (44_step_run R85). In `Halted` or `Faulted` nothing changes (R88). The breakpoint is not consulted (R89). -/
def step (s : State) : Host.Outcome State Fault Refusal :=
  if s.stopped then .next s
  else
    match s.arch.fetch with
    | .instr i => exec i s
    | .trap cause info => .next (s.raise cause info)

/-- The instruction whose table bits are `w` placed where the next `step` fetches it. -/
def State.withFetchWord (s : State) (nbits w : Nat) : State :=
  s.placeWord (BitVec.ofNat 16 (w % 2 ^ nbits))

end Sys2Proof.Machine
end

