-- ==== Sys2Proof/Machine/Assembler.lean ====
section
/-! DEFINITION. The assembler boundary of 30_encoding R60 to R68: how lines whose text is already read become the Words
that `LOAD` takes. The assembler is no part of the CORE (00_scope R3) and no other file depends on this one. Comment
stripping, literal spelling and file formats are out of scope. Choices: log entry 8. -/

namespace Sys2Proof.Machine.Assembler

/-- The target of a branch as written (R61). -/
inductive Target where
  | label (name : String)
  | offset (n : Int)
deriving DecidableEq, Repr

/-- The operand of `.word` (R64); `malformed` is a token that is neither label nor literal. -/
inductive WordOperand where
  | label (name : String)
  | literal (v : Word)
  | malformed
deriving DecidableEq, Repr

/-- What one line asks for (R61, R66). -/
inductive Operation where
  | add (rx ry rz : Reg)
  | nand (rx ry rz : Reg)
  | addi (rx ry : Reg) (n : Int)
  /-- `lw rx, n(ry)`. -/
  | lw (rx : Reg) (n : Int) (ry : Reg)
  /-- `sw rx, n(ry)`. -/
  | sw (rx : Reg) (n : Int) (ry : Reg)
  | beq (rx ry : Reg) (target : Target)
  | jalr (rx ry : Reg)
  | halt
  | noop
  | word (v : WordOperand)
  | la (rx : Reg) (sym : String)
  /-- An origin or block directive: recognised, reported, emits no Word (R66). -/
  | unsupported
  /-- A line no table entry matches (R68). -/
  | unrecognized
deriving DecidableEq, Repr

/-- A line as read: its labels, then an operation. More than one label is an error (R60). -/
structure Line where
  labels : List String
  op : Operation
deriving DecidableEq, Repr

/-- The assembler's errors (R68), and three refusals of this model where the spec leaves the Words open. -/
inductive Error where
  | offsetTooLarge (offset : Int) (line : Nat)
  | unrecognizedInstruction (line : Nat)
  | notANumber (line : Nat)
  | duplicateLabel
  /-- A `la` line where no LA_EXPANSION is supplied (R67, D25). -/
  | laExpansionOpen (line : Nat)
  /-- A `la` line where the supplied LA_EXPANSION has no Words: no sequence need work at every address (N7). DESIGN
  CHOICE, safe: log entry 8. -/
  | laOutOfReach (line : Nat)
  /-- The address of a label of 65536 or more, where a Word is to hold it: the spec does not say what Word that is (R64,
  N9). DESIGN CHOICE, safe: log entry 8. -/
  | wordValueOpen (address line : Nat)
deriving DecidableEq, Repr

/-- What the assembler says of a source without giving up on it. -/
inductive Report where
  /-- The line is an origin or block directive, which is not supported (R66, D26). -/
  | unsupportedDirective (line : Nat)
deriving DecidableEq, Repr

/-- What assembly yields: the Words in order, and the reports made on the way (R66). -/
structure Assembled where
  words : List Word
  reports : List Report
deriving DecidableEq, Repr

/-- One Word and no report. -/
def Assembled.word (w : Word) : Assembled := ⟨[w], []⟩

/-- What a source yields whose first line yields `x` and whose rest yields `y`. -/
def Assembled.append (x y : Assembled) : Assembled := ⟨x.words ++ y.words, x.reports ++ y.reports⟩

/-- How many Words a line emits (R59, R66, R67). -/
def Operation.size : Operation → Nat
  | .la _ _ => 4
  | .unsupported => 0
  | .add _ _ _ => 1
  | .nand _ _ _ => 1
  | .addi _ _ _ => 1
  | .lw _ _ _ => 1
  | .sw _ _ _ => 1
  | .beq _ _ _ => 1
  | .jalr _ _ => 1
  | .halt => 1
  | .noop => 1
  | .word _ => 1
  | .unrecognized => 1

/-- A label table: names with the addresses they are bound to. -/
abbrev Labels := List (String × Nat)

/-- The address a label is bound to. -/
def Labels.find (t : Labels) (name : String) : Option Nat := List.lookup name t

/-- The address of line `k`: the count of Words emitted before it (R60). -/
def lineAddress (lines : List Line) (k : Nat) : Nat := ((lines.take k).map fun l => l.op.size).sum

/-- Pass one (R60): each label is bound to the count of Words emitted before its line. A second label on a line and a
label bound before are both `DuplicateLabel`. -/
def bindLabels : Nat → Labels → List Line → Except Error Labels
  | _, t, [] => .ok t
  | a, t, l :: ls =>
    match l.labels with
    | [] => bindLabels (a + l.op.size) t ls
    | [name] =>
      match t.find name with
      | some _ => .error .duplicateLabel
      | none => bindLabels (a + l.op.size) ((name, a) :: t) ls
    | _ :: _ :: _ => .error .duplicateLabel

/-- The immediate field of an offset in -16..15, an error outside (R51, R62, R63). -/
def immField (line : Nat) (n : Int) : Except Error Imm5 :=
  if -16 ≤ n ∧ n ≤ 15 then .ok (Imm5.ofInt n) else .error (.offsetTooLarge n line)

/-- The offset of a branch at `here` to `there` (R62). -/
def branchOffset (there here : Nat) : Int := (there : Int) - (here : Int) - 1

/-- The Word that holds the address of a label (R64, R67). An address that is no Word is refused by name, because the
spec says neither that it is accepted nor how it is reduced (N9; DESIGN CHOICE, log entry 8). -/
def labelWord (t : Labels) (line : Nat) (name : String) : Except Error Word :=
  match t.find name with
  | none => .error (.notANumber line)
  | some there => if there < 2 ^ Config.xlen then .ok (BitVec.ofNat 16 there) else .error (.wordValueOpen there line)

/-- The parameter LA_EXPANSION, which the spec leaves open and a model takes as an argument (R67, D25). What R67 fixes is
fixed here: four Words, one of them the symbol's address, and the one before it a branch always taken over it. That the
branch is a `beq` of one register with itself and offset 1, that this register depends on the register of the `la` alone,
and that the place of the branch is the same for every `la`, is the model's choice (DESIGN CHOICE, log entry 8). -/
structure LaExpansion where
  /-- How many of the two other Words come before the branch. -/
  lead : Fin 3
  /-- The register that the branch compares with itself, from the register of the `la`: a fixed one, or that one. -/
  branchReg : Reg → Reg
  /-- The two other Words, from the register of the `la`, its address and the symbol's address; none where the sequence
  does not work (N7). -/
  others : Reg → Nat → Word → Option (Word × Word)

/-- The four Words of `la rx, symbol` at address `here`, the symbol's address being `data` (R67). -/
def LaExpansion.words (x : LaExpansion) (rx : Reg) (here : Nat) (data : Word) : Option (List Word) :=
  (x.others rx here data).map fun p =>
    [p.1, p.2].take x.lead ++ [encode (.beq (x.branchReg rx) (x.branchReg rx) 1), data] ++ [p.1, p.2].drop x.lead

/-- A `la` line (R67): refused until an expansion is supplied (D25). -/
def emitLa (la : Option LaExpansion) (t : Labels) (here line : Nat) (rx : Reg) (sym : String) : Except Error Assembled :=
  match la with
  | none => .error (.laExpansionOpen line)
  | some x =>
    match labelWord t line sym with
    | .error e => .error e
    | .ok data =>
      match x.words rx here data with
      | none => .error (.laOutOfReach line)
      | some ws => .ok ⟨ws, []⟩

/-- An instruction with an immediate: one Word, or the error of its range. -/
def emitImm (line : Nat) (n : Int) (mk : Imm5 → Instr) : Except Error Assembled :=
  (immField line n).map fun imm => .word (encode (mk imm))

/-- What the line of number `line` yields at address `a` (R57, R61 to R67), with LA_EXPANSION `la`, if supplied. -/
def emitLine (la : Option LaExpansion) (t : Labels) (a line : Nat) : Operation → Except Error Assembled
  | .add rx ry rz => .ok (.word (encode (.add rx ry rz)))
  | .nand rx ry rz => .ok (.word (encode (.nand rx ry rz)))
  | .addi rx ry n => emitImm line n (.addi rx ry)
  | .lw rx n ry => emitImm line n (.lw rx ry)
  | .sw rx n ry => emitImm line n (.sw rx ry)
  | .beq rx ry (.offset n) => emitImm line n (.beq rx ry)
  | .beq rx ry (.label name) =>
    match t.find name with
    | none => .error (.unrecognizedInstruction line)
    | some there => emitImm line (branchOffset there a) (.beq rx ry)
  | .jalr rx ry => .ok (.word (encode (.jalr rx ry)))
  | .halt => .ok (.word Config.haltWord)
  | .noop => .ok (.word Config.noopWord)
  | .word (.literal v) => .ok (.word v)
  | .word (.label name) => (labelWord t line name).map .word
  | .word .malformed => .error (.notANumber line)
  | .la rx sym => emitLa la t a line rx sym
  | .unsupported => .ok ⟨[], [.unsupportedDirective line]⟩
  | .unrecognized => .error (.unrecognizedInstruction line)

/-- Pass two: what all lines yield in order, or the first error and nothing else (R68). -/
def emit (la : Option LaExpansion) (t : Labels) : Nat → Nat → List Line → Except Error Assembled
  | _, _, [] => .ok ⟨[], []⟩
  | a, line, l :: ls =>
    match emitLine la t a line l.op with
    | .error e => .error e
    | .ok first =>
      match emit la t (a + l.op.size) (line + 1) ls with
      | .error e => .error e
      | .ok rest => .ok (first.append rest)

/-- The assembler: both passes, with LA_EXPANSION `la`, if supplied. -/
def assemble (la : Option LaExpansion) (lines : List Line) : Except Error Assembled :=
  match bindLabels 0 [] lines with
  | .error e => .error e
  | .ok t => emit la t 0 0 lines

end Sys2Proof.Machine.Assembler
end

