-- ==== Sys2Proof/Machine/Commands.lean ====
section
/-! DEFINITION. The host's seven commands (10_state R23) with their results, the breakpoint comparator inside `RUN`,
the rollback stack's pop, and the observation port (R24). -/

namespace Sys2Proof.Machine

/-! ### STEP (44_step_run R85, R87) -/

/-- `step_result` (R87). -/
inductive StepResult where
  | executed | executedHalt | fault | ignored
deriving DecidableEq, Repr

/-- The result that goes with the status an accepted step leaves (R85 line 8, 60_exceptions R119). -/
def Status.stepResult : Status → StepResult
  | .faulted => .fault
  | .halted => .executedHalt
  | .loaded => .executed
  | .running => .executed
  | .stoppedAtBreakpoint => .executed

/-- `STEP` with its result. -/
def State.stepCommand (s : State) : Host.Outcome (StepResult × State) Fault Refusal :=
  match step s with
  | .next t => .next (if s.stopped then .ignored else t.status.stepResult, t)
  | .fault r => .fault r
  | .refused r => .refused r

/-! ### RUN (44_step_run R91 to R95) -/

/-- `run_result` (R95). -/
inductive RunResult where
  | halted | breakpointHit | fault | ignored
deriving DecidableEq, Repr

/-- One turn of the loop of R91: it returns a result, or goes round again. -/
inductive RunTurn where
  | done (r : RunResult) (s : State)
  | again (s : State)
deriving DecidableEq, Repr

/-- One turn of the loop of R91: the comparator first, then a step. The loop is entered and re-entered only in a
status that accepts a step, so `ignored` does not arise here. -/
def State.runTurn (s : State) : Host.Outcome RunTurn Fault Refusal :=
  if s.bpHit then .next (.done .breakpointHit { s with status := .stoppedAtBreakpoint })
  else
    match s.stepCommand with
    | .next (.executed, t) => .next (.again t)
    | .next (.executedHalt, t) => .next (.done .halted t)
    | .next (.fault, t) => .next (.done .fault t)
    | .next (.ignored, t) => .next (.done .ignored t)
    | .fault r => .fault r
    | .refused r => .refused r

/-- The loop of R91 as a relation: from `s` it returns `r`, leaving `t` (R92). -/
inductive RunLoop : State → RunResult → State → Prop where
  | done {s r t} : s.runTurn = .next (.done r t) → RunLoop s r t
  | again {s u r t} : s.runTurn = .next (.again u) → RunLoop u r t → RunLoop s r t

/-- `RUN` from `s` returns `r`, leaving `t`. A `RUN` that never returns is related to nothing (R92). -/
def RunReturns (s : State) (r : RunResult) (t : State) : Prop :=
  if s.stopped then r = .ignored ∧ t = s else RunLoop s r t

/-- The loop of R91 under fuel, one unit a turn; `none` says only that the fuel ran out. -/
def State.runLoop : Nat → State → Option (RunResult × State)
  | 0, _ => none
  | n + 1, s =>
    match s.runTurn with
    | .next (.done r t) => some (r, t)
    | .next (.again t) => State.runLoop n t
    | .fault _ => none
    | .refused _ => none

/-- `RUN` under fuel (R92). -/
def State.run (fuel : Nat) (s : State) : Option (RunResult × State) :=
  if s.stopped then some (.ignored, s) else State.runLoop fuel s

/-! ### The commands that execute no instruction (45_host_commands) -/

/-- `LOAD(words)` (R100, R101). The registers and `bp_addr` are kept. -/
def State.load (words : List Word) (s : State) : Bool × State :=
  if Program.wellFormed words then
    (true, { s with
      arch := { s.arch with mem := Memory.ofWords Config.loadBase words, pc := Config.resetPc }
      status := .loaded
      bpValid := false
      faultCause := .noFault
      faultInfo := 0
      hist := []
      image := words })
  else (false, s)

/-- `RESET` (R103). -/
def State.resetCommand (s : State) : State :=
  { s with
    arch := ⟨RegFile.zero, Memory.ofWords Config.loadBase s.image, Config.resetPc⟩
    status := .loaded
    faultCause := .noFault
    faultInfo := 0
    hist := [] }

/-- `REWIND` (R105, R106). -/
def State.rewind (s : State) : Bool × State :=
  match s.hist with
  | [] => (false, s)
  | e :: h =>
    (true, { s with
      arch := e
      hist := h
      faultCause := .noFault
      faultInfo := 0
      status := if s.bpValid && decide (e.pc = s.bpAddr) then .stoppedAtBreakpoint else .running })

/-- `SETBP(a)` (R108). -/
def State.setBreakpoint (a : Word) (s : State) : State :=
  { s with bpValid := true, bpAddr := a }

/-- What `DISASM` returns: the address, the Word there and its decoding (R110). Spelling for display is out of scope. -/
structure Disassembly where
  address : Word
  word : Word
  decoded : Decoded
deriving DecidableEq, Repr

/-- `DISASM(a)` (R110): nothing for an address with no storage. -/
def State.disasm (a : Word) (s : State) : Option Disassembly :=
  if inRange a then some ⟨a, s.arch.readMem a, decode (s.arch.readMem a)⟩ else none

/-! ### The command port (10_state R23) -/

/-- The commands of R23. -/
inductive Command where
  | load (words : List Word)
  | step
  | run
  | reset
  | rewind
  | setbp (a : Word)
  | disasm (a : Word)
deriving DecidableEq, Repr

/-- The results of R23. -/
inductive Response where
  | accepted (b : Bool)
  | step (r : StepResult)
  | run (r : RunResult)
  | ok (b : Bool)
  | disasm (d : Option Disassembly)
  | noResult
deriving DecidableEq, Repr

/-- One command, complete, in one state; `none` where a `RUN` outlasts the fuel. -/
def Command.perform (fuel : Nat) (c : Command) (s : State) : Option (Response × State) :=
  match c with
  | .load words => some (.accepted (s.load words).1, (s.load words).2)
  | .step =>
    match s.stepCommand with
    | .next (r, t) => some (.step r, t)
    | .fault _ => none
    | .refused _ => none
  | .run => (s.run fuel).map fun p => (.run p.1, p.2)
  | .reset => some (.noResult, s.resetCommand)
  | .rewind => some (.ok s.rewind.1, s.rewind.2)
  | .setbp a => some (.noResult, s.setBreakpoint a)
  | .disasm a => some (.disasm (s.disasm a), s)

/-- The command `c` given in `s` completes with `resp`, leaving `t`. -/
def Completes (c : Command) (s : State) (resp : Response) (t : State) : Prop :=
  ∃ fuel, c.perform fuel s = some (resp, t)

/-! ### The observation port (10_state R24) -/

/-- What the host can read of the state beside memory (R24). -/
structure Observation where
  regs : List Word
  pc : Word
  status : Status
  bpValid : Bool
  bpAddr : Word
  faultCause : Nat
  faultInfo : Word
  depth : Nat
deriving DecidableEq, Repr

/-- The observation port (R24): reading changes nothing. -/
def State.observe (s : State) : Observation where
  regs := [.r0, .r1, .r2, .r3, .r4, .r5, .r6, .r7].map s.arch.reg
  pc := s.arch.pc
  status := s.status
  bpValid := s.bpValid
  bpAddr := s.bpAddr
  faultCause := s.faultCause.code
  faultInfo := s.faultInfo
  depth := s.hist.length

/-- `MEM[a]` on the observation port, for an address with storage (R24). -/
def State.observeMem (a : Word) (s : State) : Option Word :=
  if inRange a then some (s.arch.readMem a) else none

end Sys2Proof.Machine
end

