-- ==== Sys2Proof/Safety.lean ====
section
/-! DEFINITION. The terms statements are made in: the invariant of the CORE, reachability by host commands, the end
of a run, and what a step leaves alone. -/

namespace Sys2Proof.Machine

/-- What the fault registers say agrees with the state: the recorded cause and value of 60_exceptions R115. -/
def State.faultRecorded (s : State) : Prop :=
  match s.faultCause with
  | .noFault => s.faultInfo = 0
  | .fetchAddress => s.faultInfo = s.arch.pc ∧ Config.memCap ≤ s.arch.pc.toNat
  | .reservedEncoding =>
    s.faultInfo = s.arch.readMem s.arch.pc ∧ s.arch.pc.toNat < Config.memCap ∧ decode s.faultInfo = .reserved
  | .loadAddress =>
    Config.memCap ≤ s.faultInfo.toNat ∧ ∃ rx ry imm, decode (s.arch.readMem s.arch.pc) = .instr (.lw rx ry imm)
      ∧ s.faultInfo = effectiveAddress s.arch ry imm
  | .storeAddress =>
    Config.memCap ≤ s.faultInfo.toNat ∧ ∃ rx ry imm, decode (s.arch.readMem s.arch.pc) = .instr (.sw rx ry imm)
      ∧ s.faultInfo = effectiveAddress s.arch ry imm

/-- The invariant of the CORE. The canonical form of memory in it is the model's own; the rest is the spec's. -/
structure State.Inv (s : State) : Prop where
  /-- Memory is canonical: DESIGN CHOICE, log entry 1. Part of that form is that it lists no address outside
  0..16383 (R30). -/
  mem_wf : s.arch.mem.wf = true
  /-- So is the memory of every entry of `HIST` (log entry 1). -/
  hist_wf : ∀ e ∈ s.hist, e.mem.wf = true
  /-- `IMAGE` has at most MEMCAP Words (R22, R101). -/
  image_fits : Program.wellFormed s.image = true
  /-- A cause is recorded exactly in `Faulted` (R20). -/
  cause_iff : s.faultCause ≠ .noFault ↔ s.status = .faulted
  /-- The recorded value is that of the cause, 0 for none (R20, R115). -/
  recorded : s.faultRecorded
  /-- No step has run in `Loaded` (R18), so nothing can be undone (R124). -/
  loaded_empty : s.status = .loaded → s.hist = []
  /-- The `halt` that was executed left its entry (R124). -/
  halted_nonempty : s.status = .halted → s.hist ≠ []

/-- One `STEP` that executes leads from `e` to `a`: some machine whose registers, memory and pc are `e` accepts a
`STEP`, which executes and leaves `a` (44_step_run R85). -/
def Arch.StepsTo (e a : Arch) : Prop :=
  ∃ (u t : State) (r : StepResult), u.arch = e ∧ u.stepCommand = .next (r, t) ∧
    (r = .executed ∨ r = .executedHalt) ∧ t.arch = a

/-- The entries `h`, newest first, are the trace that leads to `a`: each steps to the next newer one, the newest
to `a` (10_state R21, 44_step_run R86). -/
def TraceTo : Arch → List Arch → Prop
  | _, [] => True
  | a, e :: h => e.StepsTo a ∧ TraceTo e h

/-- `HIST` is the trace that leads to the present registers, memory and pc. -/
def State.Traced (s : State) : Prop := TraceTo s.arch s.hist

/-- A `Halted` machine has executed a `halt`: the newest entry fetches the Word 0xE000, and the present registers and
memory are its own with the pc one further (42_control R82). -/
def State.HaltedByHalt (s : State) : Prop :=
  s.status = .halted → ∃ (e : Arch) (h : List Arch), s.hist = e :: h ∧ e.fetch = .instr .halt ∧
    e.readMem e.pc = 0xE000 ∧ s.arch = { e with pc := e.pc + 1 }

/-- The states the host can bring about from power-on. -/
inductive Reachable : State → Prop where
  | powerOn : Reachable State.reset
  | command {c s resp t} : Reachable s → Completes c s resp t → Reachable t

/-- A safe state: no step has failed since the last recovery. -/
def State.safe (s : State) : Prop := s.status ≠ .faulted

/-- A run is over (70_reset_and_hazards R148). -/
def State.runOver (s : State) : Prop := s.status = .halted

/-- The state beside RF, MEM, pc, `status` and `HIST`: what an executed instruction never touches (R10). -/
def SameControl (s t : State) : Prop :=
  t.bpValid = s.bpValid ∧ t.bpAddr = s.bpAddr ∧ t.faultCause = s.faultCause ∧ t.faultInfo = s.faultInfo
    ∧ t.image = s.image

/-- Every Word of memory reads as before. -/
def SameMemory (a b : Arch) : Prop := ∀ ea : Word, b.readMem ea = a.readMem ea

/-- Every Word of memory but the one at `ea` reads as before. -/
def SameMemoryBut (ea : Word) (a b : Arch) : Prop := ∀ x : Word, x ≠ ea → b.readMem x = a.readMem x

/-- Every register reads as before. -/
def SameRegs (a b : Arch) : Prop := ∀ r : Reg, b.reg r = a.reg r

/-- Every register but `rd` reads as before. -/
def SameRegsBut (rd : Reg) (a b : Arch) : Prop := ∀ r : Reg, r ≠ rd → b.reg r = a.reg r

/-- `t` is left by an executed instruction from `s`: one history entry, the state before it, and nothing of the
control state but `status` (44_step_run R85 lines 6 and 8, R86). -/
def ExecutedFrom (s t : State) (status : Status) : Prop :=
  t.hist = s.arch :: s.hist ∧ t.status = status ∧ SameControl s t

/-- `t` is `s` after a fault (60_exceptions R119): only `status` and the two fault registers differ. -/
def FaultedFrom (s t : State) (code : Nat) (info : Word) : Prop :=
  t.status = .faulted ∧ t.faultCause.code = code ∧ t.faultInfo = info ∧ t.arch = s.arch ∧ t.hist = s.hist
    ∧ t.bpValid = s.bpValid ∧ t.bpAddr = s.bpAddr ∧ t.image = s.image

/-- `n` successful `REWIND`s in a row lead from `s` to `t`. -/
def RewindsTo : Nat → State → State → Prop
  | 0, s, t => t = s
  | n + 1, s, t => ∃ u, s.rewind = (true, u) ∧ RewindsTo n u t

/-- `n` turns of the loop of 44_step_run R91 that go round again: before each the comparator does not match, and
each is one `STEP` with result `Executed`. -/
def RunSteps : Nat → State → State → Prop
  | 0, s, t => t = s
  | n + 1, s, t => s.bpHit = false ∧ ∃ u, s.stepCommand = .next (.executed, u) ∧ RunSteps n u t

/-- The registers an instruction reads (10_state R13; `noop` is `add r0, r0, r0`). -/
def registersRead : Instr → List Reg
  | .add _ ry rz => [ry, rz]
  | .nand _ ry rz => [ry, rz]
  | .addi _ ry _ => [ry]
  | .lw _ ry _ => [ry]
  | .sw rx ry _ => [rx, ry]
  | .beq rx ry _ => [rx, ry]
  | .jalr rx _ => [rx]
  | .halt => []
  | .noop => []

/-- The registers an instruction writes (10_state R13). -/
def registersWritten : Instr → List Reg
  | .add rx _ _ => [rx]
  | .nand rx _ _ => [rx]
  | .addi rx _ _ => [rx]
  | .lw rx _ _ => [rx]
  | .sw _ _ _ => []
  | .beq _ _ _ => []
  | .jalr _ ry => [ry]
  | .halt => []
  | .noop => []

/-- A status in which `STEP` and `RUN` are accepted (44_step_run R88). -/
def Status.accepts (st : Status) : Prop := st = .loaded ∨ st = .running ∨ st = .stoppedAtBreakpoint

end Sys2Proof.Machine
end

