-- ==== Sys2Proof/Certificates/Slice0/Obligations.lean ====
section
/-! DEFINITION. The statements for the provers. Each docstring names the rule of spec/ it formalises; many rules fix
what the source left open, and then the spec's decision D<n> is named (log entry 7). -/

open Sys2Proof Sys2Proof.Machine

/-! ### Registers, memory, power-on -/

/-- R11: register 0 reads 0 whatever was written; another register reads the last value written, or what it held.
The hardwiring is the spec's decision D5. -/
def Obligations.RegisterReadsLastWrite : Prop :=
  ∀ (rf : RegFile) (ws : List (Reg × Word)) (r : Reg),
    (ws.foldl (fun f p => f.set p.1 p.2) rf).get r =
      if r = .r0 then 0 else ((ws.reverse.find? fun p => p.1 = r).map Prod.snd).getD (rf.get r)

/-- A write in range sets the Word at its address and changes nothing else, so that after any writes a read returns the
last Word written to the address, or what was there (derived from R32). That it does so from a canonical memory, and that
the memory stays canonical, is about the model's own form (log entry 1; no rule of the spec). -/
def Obligations.MemoryReadsLastWrite : Prop :=
  ∀ (a : Arch) (ws : List (Word × Word)) (x : Word), a.mem.wf = true → (∀ p ∈ ws, p.1.toNat < 16384) →
    (ws.foldl (fun b p => b.writeMem p.1 p.2) a).readMem x =
        ((ws.reverse.find? fun p => p.1 = x).map Prod.snd).getD (a.readMem x) ∧
    (ws.foldl (fun b p => b.writeMem p.1 p.2) a).rf = a.rf ∧
    (ws.foldl (fun b p => b.writeMem p.1 p.2) a).pc = a.pc ∧
    (ws.foldl (fun b p => b.writeMem p.1 p.2) a).mem.wf = true

/-- R136: the power-on state (the spec's decision D15), and that `LOAD(empty)` followed by `RESET` gives it from any
state whose ignored `bp_addr` is 0 (`LOAD` leaves that register unchanged, R26). -/
def Obligations.PowerOnState : Prop :=
  ((∀ r, State.reset.arch.reg r = 0) ∧ State.reset.arch.pc = 0 ∧ (∀ x, State.reset.arch.readMem x = 0) ∧
    State.reset.status = .loaded ∧ State.reset.bpValid = false ∧ State.reset.bpAddr = 0 ∧
    State.reset.faultCause.code = 0 ∧ State.reset.faultInfo = 0 ∧ State.reset.hist = [] ∧ State.reset.image = []) ∧
  ∀ s : State, s.bpAddr = 0 → (s.load []).1 = true ∧ (s.load []).2.resetCommand = State.reset

/-! ### Decoding and encoding -/

/-- Words written out from the encodings of R47 to R50, one for each instruction, decode to it; R55: `0x0000` decodes to
`add r0, r0, r0`; R54: a Word with a reserved bit set is reserved. -/
def Obligations.SpecWordsDecode : Prop :=
  decode 0b0000110010000010#16 = .instr (.add .r3 .r1 .r2) ∧
  decode 0b0010110010000010#16 = .instr (.nand .r3 .r1 .r2) ∧
  decode 0b0100100110010000#16 = .instr (.addi .r2 .r3 (Imm5.ofInt (-16))) ∧
  decode 0b0110101010011101#16 = .instr (.lw .r2 .r5 (Imm5.ofInt (-3))) ∧
  decode 0b1000001100001111#16 = .instr (.sw .r0 .r6 (Imm5.ofInt 15)) ∧
  decode 0b1010010000011110#16 = .instr (.beq .r1 .r0 (Imm5.ofInt (-2))) ∧
  decode 0b1100011110000000#16 = .instr (.jalr .r1 .r7) ∧
  decode 0b1110000000000000#16 = .instr .halt ∧
  decode 0b0000000000000000#16 = .instr (.add .r0 .r0 .r0) ∧
  decode 0b0000000000001000#16 = .reserved ∧
  decode 0b1110000000000001#16 = .reserved

/-- Decoding the encoding of a well-formed instruction gives it back, with every operand at every value (derived from
R57). -/
def Obligations.DecodeOfEncode : Prop :=
  ∀ i : Instr, i.wellFormed = true → decode (encode i) = .instr i

/-- R57: the eight formulas (their fields are disjoint, so that the sum is the spec's `|`), and both inverses: a Word
decodes to an instruction exactly when that instruction is well formed and encodes to it. -/
def Obligations.EncoderInvertsDecoder : Prop :=
  (∀ a b c : Reg,
    (encode (.add a b c)).toNat = 0x0000 + a.toField.toNat * 1024 + b.toField.toNat * 128 + c.toField.toNat ∧
    (encode (.nand a b c)).toNat = 0x2000 + a.toField.toNat * 1024 + b.toField.toNat * 128 + c.toField.toNat) ∧
  (∀ (a b : Reg) (n : Int), -16 ≤ n → n ≤ 15 →
    ((encode (.addi a b (Imm5.ofInt n))).toNat : Int) = 0x4000 + a.toField.toNat * 1024 + b.toField.toNat * 128 + n % 32 ∧
    ((encode (.lw a b (Imm5.ofInt n))).toNat : Int) = 0x6000 + a.toField.toNat * 1024 + b.toField.toNat * 128 + n % 32 ∧
    ((encode (.sw a b (Imm5.ofInt n))).toNat : Int) = 0x8000 + a.toField.toNat * 1024 + b.toField.toNat * 128 + n % 32 ∧
    ((encode (.beq a b (Imm5.ofInt n))).toNat : Int) = 0xA000 + a.toField.toNat * 1024 + b.toField.toNat * 128 + n % 32) ∧
  (∀ a b : Reg, (encode (.jalr a b)).toNat = 0xC000 + a.toField.toNat * 1024 + b.toField.toNat * 128) ∧
  (encode .halt).toNat = 0xE000 ∧
  ∀ (w : Word) (i : Instr), decode w = .instr i ↔ i.wellFormed = true ∧ encode i = w

/-- By mask and match (derived from R53). A Word is reserved exactly when it meets none of the eight patterns, and no
Word meets two of them. -/
def Obligations.ReservedIffNoPattern : Prop :=
  let patterns : List (Word × Word) :=
    [(0xE078, 0x0000), (0xE078, 0x2000), (0xE060, 0x4000), (0xE060, 0x6000), (0xE060, 0x8000), (0xE060, 0xA000),
      (0xE07F, 0xC000), (0xFFFF, 0xE000)]
  (∀ w : Word, decode w = .reserved ↔ ∀ p ∈ patterns, w &&& p.1 ≠ p.2) ∧
  ∀ (w : Word), ∀ p ∈ patterns, ∀ q ∈ patterns, w &&& p.1 = p.2 → w &&& q.1 = q.2 → p = q

/-- R54: which Words are reserved, by opcode and reserved bits (the spec's decision D6), that the encoder never produces
one, and that a step that fetches one raises fault 2 and executes nothing. -/
def Obligations.ReservedBitsByFormat : Prop :=
  (∀ w : Word, decode w = .reserved ↔
    ((w.toNat / 8192 = 0 ∨ w.toNat / 8192 = 1) ∧ w.toNat / 8 % 16 ≠ 0) ∨
    (2 ≤ w.toNat / 8192 ∧ w.toNat / 8192 ≤ 5 ∧ w.toNat / 32 % 4 ≠ 0) ∨
    (w.toNat / 8192 = 6 ∧ w.toNat % 128 ≠ 0) ∨
    (w.toNat / 8192 = 7 ∧ w.toNat % 8192 ≠ 0)) ∧
  (∀ i : Instr, decode (encode i) ≠ .reserved) ∧
  ∀ s : State, s.stopped = false → s.arch.pc.toNat < 16384 → decode (s.arch.readMem s.arch.pc) = .reserved →
    ∃ t, step s = .next t ∧ FaultedFrom s t 2 (s.arch.readMem s.arch.pc)

/-- R51: the value of `imm5`, its sign extension, and the field the encoder puts a value of -16..15 in. -/
def Obligations.ImmediateIsSignExtended : Prop :=
  (∀ imm : Imm5, (sextImm imm).toInt = (if imm.toNat < 16 then (imm.toNat : Int) else (imm.toNat : Int) - 32)) ∧
  (∀ imm : Imm5, -16 ≤ (sextImm imm).toInt ∧ (sextImm imm).toInt ≤ 15) ∧
  ∀ n : Int, -16 ≤ n → n ≤ 15 → ((Imm5.ofInt n).toNat : Int) = n % 32 ∧ (sextImm (Imm5.ofInt n)).toInt = n

/-! ### The instructions: encoding, result and frame, completing in every state -/

/-- R70: `add`, its Word, its sum modulo 65536, its pc, and that nothing else changes but the history entry and status of
R85. The meaning is the spec's decision D10. -/
def Obligations.AddResultAndFrame : Prop :=
  ∀ (s : State) (rx ry rz : Reg),
    encode (.add rx ry rz) = 0b000#3 ++ rx.toField ++ ry.toField ++ 0b0000#4 ++ rz.toField ∧
    ∃ t, exec (.add rx ry rz) s = .next t ∧
      (t.arch.reg rx).toNat =
        (if rx = .r0 then 0 else ((s.arch.reg ry).toNat + (s.arch.reg rz).toNat) % 65536) ∧
      t.arch.pc.toNat = (s.arch.pc.toNat + 1) % 65536 ∧
      SameRegsBut rx s.arch t.arch ∧ SameMemory s.arch t.arch ∧ ExecutedFrom s t .running

/-- R71: `nand`, bit by bit. Adopted by the spec's decisions D1, D10. -/
def Obligations.NandResultAndFrame : Prop :=
  ∀ (s : State) (rx ry rz : Reg),
    encode (.nand rx ry rz) = 0b001#3 ++ rx.toField ++ ry.toField ++ 0b0000#4 ++ rz.toField ∧
    ∃ t, exec (.nand rx ry rz) s = .next t ∧
      (∀ k, k < 16 → (t.arch.reg rx).getLsbD k =
        (decide (rx ≠ .r0) && !((s.arch.reg ry).getLsbD k && (s.arch.reg rz).getLsbD k))) ∧
      t.arch.pc.toNat = (s.arch.pc.toNat + 1) % 65536 ∧
      SameRegsBut rx s.arch t.arch ∧ SameMemory s.arch t.arch ∧ ExecutedFrom s t .running

/-- R72: `addi`. Adopted by the spec's decisions D1, D10. -/
def Obligations.AddiResultAndFrame : Prop :=
  ∀ (s : State) (rx ry : Reg) (imm : Imm5),
    encode (.addi rx ry imm) = 0b010#3 ++ rx.toField ++ ry.toField ++ 0b00#2 ++ imm ∧
    ∃ t, exec (.addi rx ry imm) s = .next t ∧
      ((t.arch.reg rx).toNat : Int) =
        (if rx = .r0 then 0 else (((s.arch.reg ry).toNat : Int) + imm.toInt) % 65536) ∧
      t.arch.pc.toNat = (s.arch.pc.toNat + 1) % 65536 ∧
      SameRegsBut rx s.arch t.arch ∧ SameMemory s.arch t.arch ∧ ExecutedFrom s t .running

/-- R73: `noop` is the Word 0x0000, decodes as `add r0, r0, r0`, does exactly what that does in every state, and only
advances the pc. -/
def Obligations.NoopIsAddOfRegisterZero : Prop :=
  encode .noop = 0x0000 ∧ decode 0x0000 = .instr (.add .r0 .r0 .r0) ∧
  ∀ s : State, exec .noop s = exec (.add .r0 .r0 .r0) s ∧
    ∃ t, exec .noop s = .next t ∧ t.arch.pc.toNat = (s.arch.pc.toNat + 1) % 65536 ∧
      SameRegs s.arch t.arch ∧ SameMemory s.arch t.arch ∧ ExecutedFrom s t .running

/-- R77: the effective address wraps at 16 bits before the range test (the spec's decisions D7, D8). -/
def Obligations.EffectiveAddressWraps : Prop :=
  (∀ (a : Arch) (ry : Reg) (imm : Imm5),
    ((effectiveAddress a ry imm).toNat : Int) = (((a.reg ry).toNat : Int) + imm.toInt) % 65536) ∧
  (∀ (s : State) (rx ry : Reg) (imm : Imm5) (t : State),
    exec (.lw rx ry imm) s = .next t ∨ exec (.sw rx ry imm) s = .next t →
      (16384 ≤ (effectiveAddress s.arch ry imm).toNat ↔ t.status = .faulted))

/-- R75: `lw`. In range it loads the Word at the effective address, whatever the destination; out of range it raises
fault 3 with the address (the spec's decisions D7, D12). -/
def Obligations.LwResultFaultAndFrame : Prop :=
  ∀ (s : State) (rx ry : Reg) (imm : Imm5),
    encode (.lw rx ry imm) = 0b011#3 ++ rx.toField ++ ry.toField ++ 0b00#2 ++ imm ∧
    ((effectiveAddress s.arch ry imm).toNat < 16384 →
      ∃ t, exec (.lw rx ry imm) s = .next t ∧
        t.arch.reg rx = (if rx = .r0 then 0 else s.arch.readMem (effectiveAddress s.arch ry imm)) ∧
        t.arch.pc.toNat = (s.arch.pc.toNat + 1) % 65536 ∧
        SameRegsBut rx s.arch t.arch ∧ SameMemory s.arch t.arch ∧ ExecutedFrom s t .running) ∧
    (16384 ≤ (effectiveAddress s.arch ry imm).toNat →
      ∃ t, exec (.lw rx ry imm) s = .next t ∧ FaultedFrom s t 3 (effectiveAddress s.arch ry imm))

/-- R76: `sw`. In range it stores at the effective address, where every other Word of memory, every register and the
program image keep their values; out of range it raises fault 4. The stored Word reads back in every canonical memory. -/
def Obligations.SwResultFaultAndFrame : Prop :=
  ∀ (s : State) (rx ry : Reg) (imm : Imm5),
    encode (.sw rx ry imm) = 0b100#3 ++ rx.toField ++ ry.toField ++ 0b00#2 ++ imm ∧
    ((effectiveAddress s.arch ry imm).toNat < 16384 →
      ∃ t, exec (.sw rx ry imm) s = .next t ∧
        (s.arch.mem.wf = true → t.arch.readMem (effectiveAddress s.arch ry imm) = s.arch.reg rx) ∧
        SameMemoryBut (effectiveAddress s.arch ry imm) s.arch t.arch ∧
        t.arch.pc.toNat = (s.arch.pc.toNat + 1) % 65536 ∧
        SameRegs s.arch t.arch ∧ ExecutedFrom s t .running) ∧
    (16384 ≤ (effectiveAddress s.arch ry imm).toNat →
      ∃ t, exec (.sw rx ry imm) s = .next t ∧ FaultedFrom s t 4 (effectiveAddress s.arch ry imm))

/-- R80: `beq` compares whole Words and is relative to the next address; not taken falls through (the spec's decision
D29). The target is not checked here; one of 16384 or more faults at the next step's fetch. -/
def Obligations.BeqTargetAndFrame : Prop :=
  ∀ (s : State) (rx ry : Reg) (imm : Imm5),
    encode (.beq rx ry imm) = 0b101#3 ++ rx.toField ++ ry.toField ++ 0b00#2 ++ imm ∧
    ∃ t, exec (.beq rx ry imm) s = .next t ∧
      ((t.arch.pc.toNat : Int) =
        if (s.arch.reg rx).toNat = (s.arch.reg ry).toNat then ((s.arch.pc.toNat : Int) + 1 + imm.toInt) % 65536
        else ((s.arch.pc.toNat : Int) + 1) % 65536) ∧
      SameRegs s.arch t.arch ∧ SameMemory s.arch t.arch ∧ ExecutedFrom s t .running ∧
      (16384 ≤ t.arch.pc.toNat → ∃ u, step t = .next u ∧ FaultedFrom t u 1 t.arch.pc)

/-- R81: `jalr` links first and reads the target after it, so with `RX = RY` not 0 it goes to `pc + 1` (the spec's
decision D11). The target is not checked here; one of 16384 or more faults at the next step's fetch. -/
def Obligations.JalrLinkTargetAndFrame : Prop :=
  ∀ (s : State) (rx ry : Reg),
    encode (.jalr rx ry) = 0b110#3 ++ rx.toField ++ ry.toField ++ 0b0000000#7 ∧
    ∃ t, exec (.jalr rx ry) s = .next t ∧
      (t.arch.reg ry).toNat = (if ry = .r0 then 0 else (s.arch.pc.toNat + 1) % 65536) ∧
      t.arch.pc.toNat =
        (if rx = ry ∧ ry ≠ .r0 then (s.arch.pc.toNat + 1) % 65536 else (s.arch.reg rx).toNat) ∧
      SameRegsBut ry s.arch t.arch ∧ SameMemory s.arch t.arch ∧ ExecutedFrom s t .running ∧
      (16384 ≤ t.arch.pc.toNat → ∃ u, step t = .next u ∧ FaultedFrom t u 1 t.arch.pc)

/-- R82: `halt` is the single Word 0xE000; it advances the pc and sets `Halted`; the `STEP` that executes it reports
`ExecutedHalt`; after it `STEP` and `RUN` are ignored (the spec's decision D13), and `REWIND` goes back to it. -/
def Obligations.HaltStopsAndFrame : Prop :=
  (∀ w : Word, decode w = .instr .halt ↔ w = 0xE000) ∧
  ∀ s : State, ∃ t, exec .halt s = .next t ∧ t.arch.pc.toNat = (s.arch.pc.toNat + 1) % 65536 ∧
    SameRegs s.arch t.arch ∧ SameMemory s.arch t.arch ∧ ExecutedFrom s t .halted ∧
    (s.stopped = false → s.arch.fetch = .instr .halt → s.stepCommand = .next (.executedHalt, t)) ∧
    t.stepCommand = .next (.ignored, t) ∧ RunReturns t .ignored t ∧
    ∃ u, t.rewind = (true, u) ∧ u.arch = s.arch ∧ u.status ≠ .halted

/-- R13: what each instruction reads and writes. Two states that agree on pc, memory and the registers read give the same
pc, memory, status and written values; every register not written keeps its value. -/
def Obligations.RegistersReadAndWritten : Prop :=
  ∀ (i : Instr) (s s' t t' : State), exec i s = .next t → exec i s' = .next t' →
    s.arch.pc = s'.arch.pc → s.arch.mem = s'.arch.mem → (∀ r ∈ registersRead i, s.arch.reg r = s'.arch.reg r) →
    t.arch.pc = t'.arch.pc ∧ t.arch.mem = t'.arch.mem ∧ t.status = t'.status ∧
    (∀ r ∈ registersWritten i, t.status ≠ .faulted → t.arch.reg r = t'.arch.reg r) ∧
    (∀ r, r ∉ registersWritten i → t.arch.reg r = s.arch.reg r)

/-! ### STEP -/

/-- A step runs the decoded instruction: R85 lines 1 to 4, R90. Nothing is added around `exec`, which does lines 5 to 8. -/
def Obligations.StepRunsDecodedInstruction : Prop :=
  ∀ (s : State) (i : Instr), s.status ≠ .halted → s.status ≠ .faulted → s.arch.pc.toNat < 16384 →
    decode (s.arch.readMem s.arch.pc) = .instr i → step s = exec i s

/-- R85: `STEP` line by line, with its result. The fault checks are the spec's decision D12. -/
def Obligations.StepFollowsItsAlgorithm : Prop :=
  ∀ s : State,
    ((s.status = .halted ∨ s.status = .faulted) → s.stepCommand = .next (.ignored, s)) ∧
    (s.status ≠ .halted → s.status ≠ .faulted → 16384 ≤ s.arch.pc.toNat →
      ∃ t, s.stepCommand = .next (.fault, t) ∧ FaultedFrom s t 1 s.arch.pc) ∧
    (s.status ≠ .halted → s.status ≠ .faulted → s.arch.pc.toNat < 16384 →
      (decode (s.arch.readMem s.arch.pc) = .reserved →
        ∃ t, s.stepCommand = .next (.fault, t) ∧ FaultedFrom s t 2 (s.arch.readMem s.arch.pc)) ∧
      (∀ rx ry imm, decode (s.arch.readMem s.arch.pc) = .instr (.lw rx ry imm) →
        16384 ≤ (effectiveAddress s.arch ry imm).toNat →
        ∃ t, s.stepCommand = .next (.fault, t) ∧ FaultedFrom s t 3 (effectiveAddress s.arch ry imm)) ∧
      (∀ rx ry imm, decode (s.arch.readMem s.arch.pc) = .instr (.sw rx ry imm) →
        16384 ≤ (effectiveAddress s.arch ry imm).toNat →
        ∃ t, s.stepCommand = .next (.fault, t) ∧ FaultedFrom s t 4 (effectiveAddress s.arch ry imm)) ∧
      (∀ i, decode (s.arch.readMem s.arch.pc) = .instr i →
        (∀ rx ry imm, i = .lw rx ry imm ∨ i = .sw rx ry imm →
          (effectiveAddress s.arch ry imm).toNat < 16384) →
        ∃ t, exec i s = .next t ∧ t.hist = s.arch :: s.hist ∧
          t.status = (if i = .halt then .halted else .running) ∧
          s.stepCommand = .next (if i = .halt then .executedHalt else .executed, t)))

/-- R88: in `Halted` or `Faulted`, `STEP` and `RUN` change nothing and answer `Ignored` (the spec's decision D13); in the
three other statuses `STEP` never answers `Ignored`. -/
def Obligations.StoppedMachineIgnoresStepAndRun : Prop :=
  (∀ s : State, s.status = .halted ∨ s.status = .faulted →
    step s = .next s ∧ s.stepCommand = .next (.ignored, s) ∧ ∀ r t, RunReturns s r t ↔ r = .ignored ∧ t = s) ∧
  ∀ s : State, s.status.accepts → ∃ r t, s.stepCommand = .next (r, t) ∧ r ≠ .ignored

/-- Every step answers a next state: no fault or refusal of the model ends a run (derived from R85 and R115). -/
def Obligations.StepAlwaysAnswers : Prop :=
  ∀ s : State, ∃ t, step s = .next t

/-- R115: the only faults and what they record, raised by a step and by no other command. -/
def Obligations.FaultsAreTheTabledOnes : Prop :=
  (∀ s t : State, s.stopped = false → step s = .next t → t.status = .faulted →
    (t.faultCause.code = 1 ∧ t.faultInfo = s.arch.pc ∧ 16384 ≤ s.arch.pc.toNat) ∨
    (t.faultCause.code = 2 ∧ t.faultInfo = s.arch.readMem s.arch.pc ∧ s.arch.pc.toNat < 16384 ∧
      decode t.faultInfo = .reserved) ∨
    (t.faultCause.code = 3 ∧ 16384 ≤ t.faultInfo.toNat ∧ ∃ rx ry imm, s.arch.fetch = .instr (.lw rx ry imm) ∧
      t.faultInfo = effectiveAddress s.arch ry imm) ∨
    (t.faultCause.code = 4 ∧ 16384 ≤ t.faultInfo.toNat ∧ ∃ rx ry imm, s.arch.fetch = .instr (.sw rx ry imm) ∧
      t.faultInfo = effectiveAddress s.arch ry imm)) ∧
  ∀ (c : Command) (s : State) (resp : Response) (t : State), Completes c s resp t → s.status ≠ .faulted →
    t.status = .faulted → c = .step ∨ c = .run

/-- R119: a fault is precise: only `status`, `fault_cause` and `fault_info` change, the `STEP` and an enclosing `RUN`
return `Fault`, and the machine stays `Faulted` under `STEP` and `RUN` (the spec's decision D12). -/
def Obligations.FaultsArePrecise : Prop :=
  ∀ s t : State, s.stopped = false → step s = .next t → t.status = .faulted →
    t = { s with status := .faulted, faultCause := t.faultCause, faultInfo := t.faultInfo } ∧
    s.stepCommand = .next (.fault, t) ∧ (s.bpHit = false → RunReturns s .fault t) ∧
    step t = .next t ∧ RunReturns t .ignored t

/-- Only `sw` writes memory, only the Word at its effective address, and that inside 0..16383 (derived from R32, R37 and
R76; 95_test_vectors Part 4 property 8). -/
def Obligations.OnlySwWritesMemory : Prop :=
  ∀ (s t : State) (x : Word), step s = .next t → t.arch.readMem x ≠ s.arch.readMem x →
    x.toNat < 16384 ∧ ∃ rx ry imm, s.arch.fetch = .instr (.sw rx ry imm) ∧ x = effectiveAddress s.arch ry imm

/-- Every executed instruction but `beq` and `jalr` sets `pc + 1` modulo 65536, `halt` included (derived from R14). -/
def Obligations.OtherInstructionsAdvancePc : Prop :=
  ∀ (s t : State) (r : StepResult) (i : Instr), s.stepCommand = .next (r, t) →
    r = .executed ∨ r = .executedHalt → s.arch.fetch = .instr i →
    (∀ rx ry imm, i ≠ .beq rx ry imm) → (∀ rx ry, i ≠ .jalr rx ry) →
    t.arch.pc.toNat = (s.arch.pc.toNat + 1) % 65536

/-- No program can see the debug state: two machines that agree on RF, MEM and pc and both accept a step make the same
architectural step, with the same result, status, cause and value recorded (derived from R17, R21, R89, R132). -/
def Obligations.ProgramCannotSeeDebugState : Prop :=
  ∀ (s s' t t' : State) (r r' : StepResult), s.arch = s'.arch → s.stopped = false → s'.stopped = false →
    s.stepCommand = .next (r, t) → s'.stepCommand = .next (r', t') →
    r = r' ∧ t.arch = t'.arch ∧ t.status = t'.status ∧
    (r = .fault → t.faultCause = t'.faultCause ∧ t.faultInfo = t'.faultInfo)

/-- The names `Loaded`, `Running` and `StoppedAtBreakpoint` have no effect on behaviour: `STEP`, `REWIND` and, where it
returns, `RUN` do the same in each (derived from R18, R88 and R124). -/
def Obligations.AcceptingStatusesBehaveAlike : Prop :=
  ∀ (s : State) (st st' : Status), st.accepts → st'.accepts →
    State.stepCommand { s with status := st } = State.stepCommand { s with status := st' } ∧
    (∀ r t, RunReturns { s with status := st } r t ↔ RunReturns { s with status := st' } r t) ∧
    (s.hist ≠ [] → State.rewind { s with status := st } = State.rewind { s with status := st' })

/-- A store to the next address is what the next step runs (derived from R42, in canonical memories). -/
def Obligations.StoreIsSeenByTheNextFetch : Prop :=
  ∀ (s t : State) (rx ry : Reg) (imm : Imm5) (i : Instr), s.arch.mem.wf = true → s.stopped = false →
    s.arch.fetch = .instr (.sw rx ry imm) → effectiveAddress s.arch ry imm = s.arch.pc + 1 →
    (s.arch.pc + 1).toNat < 16384 → step s = .next t → decode (s.arch.reg rx) = .instr i →
    step t = exec i t

/-! ### Invariants -/

/-- The power-on state meets each of the invariants below (derived from R26 and R136; the canonical form of memory in
`State.Inv` is the model's own, log entry 1). -/
def Obligations.PowerOnMeetsInvariant : Prop := State.reset.Inv ∧ State.reset.Traced ∧ State.reset.HaltedByHalt

/-- Every step keeps the invariant: an image that fits, fault registers that say what happened, an empty history in
`Loaded` and a non-empty one in `Halted` (derived from R10, R20, R21, R22, R37, R115, R124). Its other clause, canonical
memory in the state and in every history entry, is about the model's own form of memory (log entry 1; no rule of the
spec). -/
def Obligations.StepKeepsInvariant : Prop :=
  ∀ s t : State, s.Inv → step s = .next t → t.Inv

/-- Every host command keeps the invariant, a `RUN` that returns included (derived from R23, R100, R103, R105, R108). Its
clause of canonical memory is about the model's own form of memory (log entry 1; no rule of the spec). -/
def Obligations.CommandsKeepInvariant : Prop :=
  ∀ (c : Command) (s : State) (resp : Response) (t : State), s.Inv → Completes c s resp t → t.Inv

/-- R20: in every state the host can bring about, `fault_cause` is 0 or a code 1 to 4, and both fault registers are 0
whenever `status` is not `Faulted`. They exist by the spec's decision D12. -/
def Obligations.FaultRegistersZeroUnlessFaulted : Prop :=
  ∀ s : State, Reachable s → s.faultCause.code ≤ 4 ∧
    (s.status = .faulted → 1 ≤ s.faultCause.code ∧ s.faultRecorded) ∧
    (s.status ≠ .faulted → s.faultCause.code = 0 ∧ s.faultInfo = 0)

/-- The history is the trace of the executed steps: every step, and every host command that completes, keeps the
property that each entry leads by one `STEP` that executes to the next newer one and the newest to the present registers,
memory and pc (derived from R21, R86, R107, R119). -/
def Obligations.HistoryIsTheExecutionTrace : Prop :=
  (∀ s t : State, s.Traced → step s = .next t → t.Traced) ∧
  ∀ (c : Command) (s : State) (resp : Response) (t : State), s.Traced → Completes c s resp t → t.Traced

/-- In `Halted` a `halt` has executed: every step, and every host command that completes, keeps the property that in
`Halted` the newest history entry fetches `halt` and the present registers, memory and pc are what it left (derived from
R82 and R148). -/
def Obligations.HaltedMeansHaltExecuted : Prop :=
  (∀ s t : State, s.HaltedByHalt → step s = .next t → t.HaltedByHalt) ∧
  ∀ (c : Command) (s : State) (resp : Response) (t : State), s.HaltedByHalt → Completes c s resp t → t.HaltedByHalt

/-! ### RUN -/

/-- R91: in `Halted` and `Faulted` `RUN` is ignored; else it returns exactly what some number of executed steps, each
behind a breakpoint test that does not match, followed by a match, a `halt` or a fault, give. -/
def Obligations.RunIsSteppingBehindTheBreakpointTest : Prop :=
  ∀ (s t : State) (r : RunResult),
    (s.stopped = true → (RunReturns s r t ↔ r = .ignored ∧ t = s)) ∧
    (s.stopped = false → (RunReturns s r t ↔ ∃ n u, RunSteps n s u ∧
      ((u.bpHit = true ∧ r = .breakpointHit ∧ t = { u with status := .stoppedAtBreakpoint }) ∨
       (u.bpHit = false ∧ r = .halted ∧ u.stepCommand = .next (.executedHalt, t)) ∨
       (u.bpHit = false ∧ r = .fault ∧ u.stepCommand = .next (.fault, t)))))

/-- `RUN` as a relation and `RUN` under fuel agree, and so a result does not depend on the fuel (derived from R92). -/
def Obligations.RunUnderFuelAgrees : Prop :=
  ∀ (s t : State) (r : RunResult), RunReturns s r t ↔ ∃ fuel, s.run fuel = some (r, t)

/-- R95: what each result of `RUN` says of the last step and of the status left, and when it is `Ignored`. -/
def Obligations.RunResultSaysTheStatus : Prop :=
  ∀ (s t : State) (r : RunResult), RunReturns s r t →
    (r = .halted → t.status = .halted ∧ ∃ n u, RunSteps n s u ∧ u.stepCommand = .next (.executedHalt, t)) ∧
    (r = .breakpointHit → t.status = .stoppedAtBreakpoint ∧ t.bpHit = true) ∧
    (r = .fault → t.status = .faulted ∧ ∃ n u, RunSteps n s u ∧ u.stepCommand = .next (.fault, t)) ∧
    (r = .ignored ↔ s.stopped = true)

/-- At the breakpoint `RUN` executes nothing and says so again, while `STEP` does what it would do with no breakpoint set
(derived from R89, R91, R93). -/
def Obligations.BreakpointStopsRunButNotStep : Prop :=
  ∀ s : State, s.stopped = false → s.bpHit = true →
    (∀ r t, RunReturns s r t ↔ r = .breakpointHit ∧ t = { s with status := .stoppedAtBreakpoint }) ∧
    ∀ r t, s.stepCommand = .next (r, t) →
      State.stepCommand { s with bpValid := false } = .next (r, { t with bpValid := false })

/-- What a `RUN` did to registers, memory, pc and history can be undone: as many `REWIND`s as it pushed entries restore
them (derived from R91 and R107). The status is not restored. -/
def Obligations.RewindsUndoRun : Prop :=
  ∀ (s t : State) (r : RunResult), RunReturns s r t →
    s.hist.length ≤ t.hist.length ∧
    ∃ u, RewindsTo (t.hist.length - s.hist.length) t u ∧ u.arch = s.arch ∧ u.hist = s.hist

/-! ### The commands that execute no instruction -/

/-- R100: `LOAD` of a program that fits. The register file is kept (the spec's decision D16). -/
def Obligations.LoadReplacesProgram : Prop :=
  ∀ (s : State) (words : List Word), words.length ≤ 16384 →
    ∃ t, s.load words = (true, t) ∧
      (∀ x : Word, x.toNat < 16384 → t.arch.readMem x = words.getD x.toNat 0) ∧
      t.arch.pc = 0 ∧ SameRegs s.arch t.arch ∧ t.hist = [] ∧ t.bpValid = false ∧ t.bpAddr = s.bpAddr ∧
      t.image = words ∧ t.status = .loaded ∧ t.faultCause.code = 0 ∧ t.faultInfo = 0

/-- R101: `LOAD` of more than 16384 Words changes nothing (the spec's decision D17). -/
def Obligations.LoadRefusesTooLongProgram : Prop :=
  ∀ (s : State) (words : List Word), 16384 < words.length → s.load words = (false, s)

/-- R103: `RESET`. The breakpoint and the image are kept. -/
def Obligations.ResetRebuildsFromImage : Prop :=
  ∀ s : State, (∀ r, s.resetCommand.arch.reg r = 0) ∧ s.resetCommand.arch.pc = 0 ∧
    (∀ x : Word, x.toNat < 16384 → s.resetCommand.arch.readMem x = s.image.getD x.toNat 0) ∧
    s.resetCommand.hist = [] ∧ s.resetCommand.status = .loaded ∧ s.resetCommand.faultCause.code = 0 ∧
    s.resetCommand.faultInfo = 0 ∧ s.resetCommand.bpValid = s.bpValid ∧ s.resetCommand.bpAddr = s.bpAddr ∧
    s.resetCommand.image = s.image

/-- After `RESET` the state is that after `LOAD(IMAGE)`, but for zero registers and the breakpoint kept (derived from
R104, where the image fits), and the memory both leave has the model's own canonical form (log entry 1; no rule of the
spec). -/
def Obligations.ResetIsLoadOfImage : Prop :=
  ∀ s : State, s.image.length ≤ 16384 →
    s.resetCommand =
      { (s.load s.image).2 with
        arch := { (s.load s.image).2.arch with rf := RegFile.zero }, bpValid := s.bpValid, bpAddr := s.bpAddr } ∧
    (s.load s.image).2.arch.mem.wf = true

/-- R105: `REWIND`. On an empty history it fails and nothing changes. -/
def Obligations.RewindPopsOneEntry : Prop :=
  (∀ s : State, s.hist = [] → s.rewind = (false, s)) ∧
  ∀ (s : State) (e : Arch) (h : List Arch), s.hist = e :: h →
    ∃ t, s.rewind = (true, t) ∧ t.arch = e ∧ t.hist = h ∧ t.faultCause.code = 0 ∧ t.faultInfo = 0 ∧
      t.status = (if s.bpValid = true ∧ e.pc = s.bpAddr then .stoppedAtBreakpoint else .running) ∧
      t.bpValid = s.bpValid ∧ t.bpAddr = s.bpAddr ∧ t.image = s.image

/-- `REWIND` straight after a `STEP` that executed restores registers, memory, pc and history to what they were (derived
from R85 and R107). -/
def Obligations.RewindUndoesStep : Prop :=
  ∀ (s t : State) (r : StepResult), s.stepCommand = .next (r, t) → r = .executed ∨ r = .executedHalt →
    ∃ u, t.rewind = (true, u) ∧ u.arch = s.arch ∧ u.hist = s.hist ∧ u.hist.length + 1 = t.hist.length

/-- After a faulting step `REWIND` fails where no step has executed, and otherwise goes back before the last executed
step, with the fault registers clear (derived from R121). -/
def Obligations.RewindAfterFaultUndoesLastExecuted : Prop :=
  ∀ s t : State, s.stepCommand = .next (.fault, t) →
    (s.hist = [] → t.rewind = (false, t)) ∧
    ∀ e h, s.hist = e :: h → ∃ u, t.rewind = (true, u) ∧ u.arch = e ∧ u.hist = h ∧ u.faultCause.code = 0 ∧
      u.faultInfo = 0 ∧ u.status ≠ .faulted

/-- R108: `SETBP`, in every status. -/
def Obligations.SetBreakpointReplaces : Prop :=
  ∀ (s : State) (a : Word), (s.setBreakpoint a).bpValid = true ∧ (s.setBreakpoint a).bpAddr = a ∧
    s.setBreakpoint a = { s with bpValid := true, bpAddr := a } ∧
    ∀ b, (s.setBreakpoint b).setBreakpoint a = s.setBreakpoint a

/-- R110: `DISASM` completes in every state, changes nothing, and answers the address, the Word and its decoding, or no
Word outside memory (the spec's decision D30). -/
def Obligations.DisassembleIsReadOnly : Prop :=
  ∀ (s : State) (a : Word), (∃ resp t, Completes (.disasm a) s resp t) ∧
    ∀ resp t, Completes (.disasm a) s resp t → t = s ∧
      (a.toNat < 16384 → resp = .disasm (some ⟨a, s.arch.readMem a, decode (s.arch.readMem a)⟩)) ∧
      (16384 ≤ a.toNat → resp = .disasm none)

/-- R124: the status each command leaves, from each status, in every state that meets the invariant. -/
def Obligations.StatusTransitions : Prop :=
  ∀ (s t : State) (resp : Response), s.Inv →
    (∀ words, Completes (.load words) s resp t →
      (resp = .accepted true ∧ t.status = .loaded) ∨ (resp = .accepted false ∧ t.status = s.status)) ∧
    (Completes .reset s resp t → t.status = .loaded) ∧
    (Completes .step s resp t →
      ((s.status = .halted ∨ s.status = .faulted) ∧ t.status = s.status) ∨
      (s.status.accepts ∧ (t.status = .running ∨ t.status = .halted ∨ t.status = .faulted))) ∧
    (Completes .run s resp t →
      ((s.status = .halted ∨ s.status = .faulted) ∧ t.status = s.status) ∨
      (s.status.accepts ∧ (t.status = .stoppedAtBreakpoint ∨ t.status = .halted ∨ t.status = .faulted) ∧
        (s.bpHit = true → t.status = .stoppedAtBreakpoint))) ∧
    (Completes .rewind s resp t →
      (resp = .ok true ∧ s.status ≠ .loaded ∧
        t.status = if t.bpHit = true then .stoppedAtBreakpoint else .running) ∨
      (resp = .ok false ∧ s.status ≠ .halted ∧ t.status = s.status)) ∧
    (∀ a, Completes (.setbp a) s resp t ∨ Completes (.disasm a) s resp t → t.status = s.status)

/-- Which commands change the breakpoint and the image: `SETBP` and an accepted `LOAD`, and `LOAD` alone (derived from the
'written by' column of R10, R19 and R22). -/
def Obligations.BreakpointAndImageWriters : Prop :=
  ∀ (c : Command) (s : State) (resp : Response) (t : State), Completes c s resp t →
    (t.bpAddr ≠ s.bpAddr → ∃ a, c = .setbp a ∧ t.bpAddr = a ∧ t.bpValid = true) ∧
    (s.bpValid = false → t.bpValid = true → ∃ a, c = .setbp a) ∧
    (s.bpValid = true → t.bpValid = false → ∃ words, c = .load words ∧ resp = .accepted true) ∧
    (t.image ≠ s.image → ∃ words, c = .load words ∧ resp = .accepted true ∧ t.image = words)

/-- How each command changes the depth of the history: one more for an executed step, one less for a successful `REWIND`,
none left after `RESET` and an accepted `LOAD`, as many more as steps executed for `RUN` whatever it returns, else
unchanged (derived from R21 and R129, for the unbounded `HIST_DEPTH` of log entry 4). -/
def Obligations.HistoryDepthCounts : Prop :=
  ∀ (s t : State) (resp : Response),
    (∀ r, Completes .step s (.step r) t →
      t.hist.length = s.hist.length + (if r = .executed ∨ r = .executedHalt then 1 else 0)) ∧
    (Completes .rewind s (.ok true) t → t.hist.length + 1 = s.hist.length) ∧
    (Completes .rewind s (.ok false) t → t.hist.length = s.hist.length ∧ s.hist.length = 0) ∧
    (Completes .reset s resp t → t.hist.length = 0) ∧
    (∀ words, Completes (.load words) s resp t →
      t.hist.length = if words.length ≤ 16384 then 0 else s.hist.length) ∧
    (∀ a, Completes (.setbp a) s resp t ∨ Completes (.disasm a) s resp t → t.hist.length = s.hist.length) ∧
    (∀ r, Completes .run s (.run r) t →
      (r = .ignored ∧ s.stopped = true ∧ t.hist.length = s.hist.length) ∨
      (s.stopped = false ∧ ∃ n u, RunSteps n s u ∧
        ((r = .breakpointHit ∧ u.bpHit = true ∧ t.hist.length = s.hist.length + n) ∨
         (r = .halted ∧ u.bpHit = false ∧ u.stepCommand = .next (.executedHalt, t) ∧
           t.hist.length = s.hist.length + n + 1) ∨
         (r = .fault ∧ u.bpHit = false ∧ u.stepCommand = .next (.fault, t) ∧ t.hist.length = s.hist.length + n))))

/-- A rollback stack of capacity `n` keeps its newest `n` entries when pushed (derived from R21 and the spec's decision
D18; the model's own stack is the unbounded one, log entry 4). -/
def Obligations.CappedHistoryKeepsNewest : Prop :=
  ∀ (n : Nat) (e : Arch) (h : List Arch), (pushHistory (some n) e h).length = min n (h.length + 1) ∧
    ∀ k, k < n → (pushHistory (some n) e h)[k]? = (e :: h)[k]?

/-! ### The boundary: programs placed from outside, and the assembler -/

/-- The model's own operation `withFetchWord` makes the very next step run the Word's instruction, from every state with a
canonical memory, whatever its status and pc (log entry 6; no rule of the spec). -/
def Obligations.PlacedWordRunsNext : Prop :=
  ∀ (s : State) (w : Nat) (i : Instr), s.arch.mem.wf = true → decodeTableWord 16 w = some i →
    step (s.withFetchWord 16 w) = exec i (s.withFetchWord 16 w)

/-- A branch assembled for a label lands on it when taken (derived from R60, R62 and R80). One line: the Word emitted at the
address of the pc decodes to the branch, whose target is the address of the label; the labels refused are those out of
reach. A whole source: the Word at the address of a branch's line decodes to the branch to the address of the line that
the label begins. Other lines may be `la`, for every `LaExpansion` (the model's range, log entry 8). -/
def Obligations.AssembledBranchLandsOnItsLabel : Prop :=
  (∀ (la : Option Assembler.LaExpansion) (a : Arch) (t : Assembler.Labels) (name : String) (there line : Nat)
    (rx ry : Reg), t.find name = some there → there < 65536 →
    match Assembler.emitLine la t a.pc.toNat line (.beq rx ry (.label name)) with
    | .ok out => ∃ w imm, out = ⟨[w], []⟩ ∧ decode w = .instr (.beq rx ry imm) ∧ (branchTarget a imm).toNat = there
    | .error e => e = .offsetTooLarge (Assembler.branchOffset there a.pc.toNat) line ∧
        (there + 15 < a.pc.toNat ∨ a.pc.toNat + 16 < there)) ∧
  ∀ (la : Option Assembler.LaExpansion) (lines : List Assembler.Line) (out : Assembler.Assembled) (k j : Nat)
    (here there : Assembler.Line) (name : String) (rx ry : Reg) (a : Arch), Assembler.assemble la lines = .ok out →
    lines[k]? = some here → here.op = .beq rx ry (.label name) → lines[j]? = some there → name ∈ there.labels →
    a.pc.toNat = Assembler.lineAddress lines k → Assembler.lineAddress lines j < 65536 →
    ∃ w imm, out.words[a.pc.toNat]? = some w ∧ decode w = .instr (.beq rx ry imm) ∧
      (branchTarget a imm).toNat = Assembler.lineAddress lines j

/-- An assembled program has as many Words as its lines emit, of which a `la` line emits four (derived from R59, R60, R66
and R67). For every `LaExpansion`, one of the four is the address of the symbol and the one before it is a branch always
taken to the Word after it; where none is supplied, no source with a `la` line assembles (the spec's decision D25). The
range is the model's choice (log entry 8): in a `LaExpansion` the branch is a `beq` of one register with itself and offset
1, its register depends on that of the `la` alone, and its place is the same for every `la`; the clause says nothing of a
sequence that R67 may allow and that type cannot state. -/
def Obligations.AssembledLengthIsTheLinesSizes : Prop :=
  (∀ (la : Option Assembler.LaExpansion) (lines : List Assembler.Line) (out : Assembler.Assembled),
    Assembler.assemble la lines = .ok out → out.words.length = (lines.map fun l => l.op.size).sum) ∧
  (∀ (x : Assembler.LaExpansion) (lines : List Assembler.Line) (out : Assembler.Assembled) (k j : Nat)
    (here there : Assembler.Line) (rx : Reg) (sym : String), Assembler.assemble (some x) lines = .ok out →
    lines[k]? = some here → here.op = .la rx sym → lines[j]? = some there → sym ∈ there.labels →
    Assembler.lineAddress lines (k + 1) = Assembler.lineAddress lines k + 4 ∧
    ∃ (d : Nat) (data w : Word) (r : Reg) (imm : Imm5), d < 3 ∧
      out.words[Assembler.lineAddress lines k + d + 1]? = some data ∧ data.toNat = Assembler.lineAddress lines j ∧
      out.words[Assembler.lineAddress lines k + d]? = some w ∧ decode w = .instr (.beq r r imm) ∧
      ∀ a : Arch, branchTarget a imm = a.pc + 2) ∧
  ∀ (lines : List Assembler.Line) (l : Assembler.Line) (rx : Reg) (sym : String), l ∈ lines → l.op = .la rx sym →
    ∃ e, Assembler.assemble none lines = .error e

/-- Labels (derived from R60 and R68). A second label on a line, or a label on two lines, is `DuplicateLabel`, reported
before any other error (the model's choice, log entry 8), and nothing else is; otherwise each label is bound to the
address of its line; a reference to a label that no line has is an error. So it is for every `LaExpansion` (the model's
range, log entry 8). -/
def Obligations.LabelsAreBoundOnce : Prop :=
  ∀ (la : Option Assembler.LaExpansion) (lines : List Assembler.Line),
    (Assembler.assemble la lines = .error .duplicateLabel ↔
      (∃ l ∈ lines, 2 ≤ l.labels.length) ∨
      ∃ (j k : Nat) (l m : Assembler.Line) (name : String), j < k ∧ lines[j]? = some l ∧ lines[k]? = some m ∧
        name ∈ l.labels ∧ name ∈ m.labels) ∧
    (∀ t, Assembler.bindLabels 0 [] lines = .ok t → ∀ (j : Nat) (l : Assembler.Line) (name : String),
      lines[j]? = some l → name ∈ l.labels → t.find name = some (Assembler.lineAddress lines j)) ∧
    ∀ (l : Assembler.Line) (name : String), l ∈ lines →
      (l.op = .word (.label name) ∨ (∃ rx ry, l.op = .beq rx ry (.label name)) ∨ ∃ rx, l.op = .la rx name) →
      (∀ m ∈ lines, name ∉ m.labels) → ∃ e, Assembler.assemble la lines = .error e

/-- Origin and block directives are reported, one report for each such line in order, emit no Word and do not end assembly:
a source without labels on them assembles to the same Words as the source without them (derived from R66; the line number
of a report is the model's choice, and so is the range of `LaExpansion`, log entry 8). -/
def Obligations.UnsupportedDirectivesAreReported : Prop :=
  (∀ (la : Option Assembler.LaExpansion) (lines : List Assembler.Line) (out : Assembler.Assembled),
    Assembler.assemble la lines = .ok out → out.reports =
      ((List.range lines.length).filter fun k => lines[k]?.map Assembler.Line.op = some .unsupported).map
        .unsupportedDirective) ∧
  ∀ (la : Option Assembler.LaExpansion) (lines : List Assembler.Line) (out : Assembler.Assembled),
    Assembler.assemble la (lines.filter fun l => l.op ≠ .unsupported) = .ok out →
    (∀ l ∈ lines, l.op = .unsupported → l.labels = []) →
    ∃ full, Assembler.assemble la lines = .ok full ∧ full.words = out.words
end

