-- ==== Sys2Proof/Laws/State.lean ====
section
/-! SUPPORT. One lemma per field per update of the state, and the register file's own laws. -/

namespace Sys2Proof.Machine

/-! ### Register file -/

@[simp] theorem RegFile.get_r0 (rf : RegFile) : rf.get .r0 = 0 := rfl
@[simp] theorem RegFile.set_r0 (rf : RegFile) (v : Word) : rf.set .r0 v = rf := rfl
@[simp] theorem RegFile.get_zero (r : Reg) : RegFile.zero.get r = 0 := by cases r <;> rfl

theorem RegFile.get_set (rf : RegFile) (r q : Reg) (v : Word) :
    (rf.set r v).get q = if q = r ∧ r ≠ .r0 then v else rf.get q := by
  cases r <;> cases q <;> simp [RegFile.get, RegFile.set]

theorem RegFile.get_set_ne (rf : RegFile) {r q : Reg} (v : Word) (h : q ≠ r) : (rf.set r v).get q = rf.get q := by
  simp [RegFile.get_set, h]

/-! ### Arch -/

@[simp] theorem Arch.setReg_mem (a : Arch) (r : Reg) (v : Word) : (a.setReg r v).mem = a.mem := rfl
@[simp] theorem Arch.setReg_pc (a : Arch) (r : Reg) (v : Word) : (a.setReg r v).pc = a.pc := rfl
@[simp] theorem Arch.setReg_rf (a : Arch) (r : Reg) (v : Word) : (a.setReg r v).rf = a.rf.set r v := rfl
@[simp] theorem Arch.setReg_readMem (a : Arch) (r : Reg) (v ea : Word) : (a.setReg r v).readMem ea = a.readMem ea := rfl
@[simp] theorem Arch.setPc_mem (a : Arch) (t : Word) : (a.setPc t).mem = a.mem := rfl
@[simp] theorem Arch.setPc_pc (a : Arch) (t : Word) : (a.setPc t).pc = t := rfl
@[simp] theorem Arch.setPc_rf (a : Arch) (t : Word) : (a.setPc t).rf = a.rf := rfl
@[simp] theorem Arch.setPc_reg (a : Arch) (t : Word) (r : Reg) : (a.setPc t).reg r = a.reg r := rfl
@[simp] theorem Arch.setPc_readMem (a : Arch) (t ea : Word) : (a.setPc t).readMem ea = a.readMem ea := rfl
@[simp] theorem Arch.nextPc_mem (a : Arch) : a.nextPc.mem = a.mem := rfl
@[simp] theorem Arch.nextPc_pc (a : Arch) : a.nextPc.pc = a.pc + 1 := rfl
@[simp] theorem Arch.nextPc_rf (a : Arch) : a.nextPc.rf = a.rf := rfl
@[simp] theorem Arch.nextPc_reg (a : Arch) (r : Reg) : a.nextPc.reg r = a.reg r := rfl
@[simp] theorem Arch.nextPc_readMem (a : Arch) (ea : Word) : a.nextPc.readMem ea = a.readMem ea := rfl
@[simp] theorem Arch.writeMem_mem (a : Arch) (ea v : Word) : (a.writeMem ea v).mem = a.mem.write ea.toNat v := rfl
@[simp] theorem Arch.writeMem_pc (a : Arch) (ea v : Word) : (a.writeMem ea v).pc = a.pc := rfl
@[simp] theorem Arch.writeMem_rf (a : Arch) (ea v : Word) : (a.writeMem ea v).rf = a.rf := rfl
@[simp] theorem Arch.writeMem_reg (a : Arch) (ea v : Word) (r : Reg) : (a.writeMem ea v).reg r = a.reg r := rfl
@[simp] theorem Arch.reg_r0 (a : Arch) : a.reg .r0 = 0 := rfl

theorem Arch.reg_setReg (a : Arch) (r q : Reg) (v : Word) :
    (a.setReg r v).reg q = if q = r ∧ r ≠ .r0 then v else a.reg q :=
  RegFile.get_set a.rf r q v

/-! ### raise -/

@[simp] theorem State.raise_arch (s : State) (c : FaultCause) (i : Word) : (s.raise c i).arch = s.arch := rfl
@[simp] theorem State.raise_status (s : State) (c : FaultCause) (i : Word) : (s.raise c i).status = .faulted := rfl
@[simp] theorem State.raise_faultCause (s : State) (c : FaultCause) (i : Word) : (s.raise c i).faultCause = c := rfl
@[simp] theorem State.raise_faultInfo (s : State) (c : FaultCause) (i : Word) : (s.raise c i).faultInfo = i := rfl
@[simp] theorem State.raise_bpValid (s : State) (c : FaultCause) (i : Word) : (s.raise c i).bpValid = s.bpValid := rfl
@[simp] theorem State.raise_bpAddr (s : State) (c : FaultCause) (i : Word) : (s.raise c i).bpAddr = s.bpAddr := rfl
@[simp] theorem State.raise_hist (s : State) (c : FaultCause) (i : Word) : (s.raise c i).hist = s.hist := rfl
@[simp] theorem State.raise_image (s : State) (c : FaultCause) (i : Word) : (s.raise c i).image = s.image := rfl

/-! ### RESET and SETBP -/

@[simp] theorem State.resetCommand_arch (s : State) :
    s.resetCommand.arch = ⟨RegFile.zero, Memory.ofWords Config.loadBase s.image, Config.resetPc⟩ := rfl
@[simp] theorem State.resetCommand_status (s : State) : s.resetCommand.status = .loaded := rfl
@[simp] theorem State.resetCommand_bpValid (s : State) : s.resetCommand.bpValid = s.bpValid := rfl
@[simp] theorem State.resetCommand_bpAddr (s : State) : s.resetCommand.bpAddr = s.bpAddr := rfl
@[simp] theorem State.resetCommand_faultCause (s : State) : s.resetCommand.faultCause = .noFault := rfl
@[simp] theorem State.resetCommand_faultInfo (s : State) : s.resetCommand.faultInfo = 0 := rfl
@[simp] theorem State.resetCommand_hist (s : State) : s.resetCommand.hist = [] := rfl
@[simp] theorem State.resetCommand_image (s : State) : s.resetCommand.image = s.image := rfl

@[simp] theorem State.setBreakpoint_arch (s : State) (a : Word) : (s.setBreakpoint a).arch = s.arch := rfl
@[simp] theorem State.setBreakpoint_status (s : State) (a : Word) : (s.setBreakpoint a).status = s.status := rfl
@[simp] theorem State.setBreakpoint_bpValid (s : State) (a : Word) : (s.setBreakpoint a).bpValid = true := rfl
@[simp] theorem State.setBreakpoint_bpAddr (s : State) (a : Word) : (s.setBreakpoint a).bpAddr = a := rfl
@[simp] theorem State.setBreakpoint_faultCause (s : State) (a : Word) :
    (s.setBreakpoint a).faultCause = s.faultCause := rfl
@[simp] theorem State.setBreakpoint_faultInfo (s : State) (a : Word) : (s.setBreakpoint a).faultInfo = s.faultInfo := rfl
@[simp] theorem State.setBreakpoint_hist (s : State) (a : Word) : (s.setBreakpoint a).hist = s.hist := rfl
@[simp] theorem State.setBreakpoint_image (s : State) (a : Word) : (s.setBreakpoint a).image = s.image := rfl

/-! ### LOAD and REWIND -/

theorem State.load_accepted (s : State) {words : List Word} (h : Program.wellFormed words = true) :
    s.load words = (true, { s with
      arch := { s.arch with mem := Memory.ofWords Config.loadBase words, pc := Config.resetPc }
      status := .loaded
      bpValid := false
      faultCause := .noFault
      faultInfo := 0
      hist := []
      image := words }) := by
  simp [State.load, h]

theorem State.load_refused (s : State) {words : List Word} (h : Program.wellFormed words = false) :
    s.load words = (false, s) := by
  simp [State.load, h]

theorem State.rewind_nil {s : State} (h : s.hist = []) : s.rewind = (false, s) := by
  simp [State.rewind, h]

theorem State.rewind_cons {s : State} {e : Arch} {h : List Arch} (hh : s.hist = e :: h) :
    s.rewind = (true, { s with
      arch := e
      hist := h
      faultCause := .noFault
      faultInfo := 0
      status := if s.bpValid && decide (e.pc = s.bpAddr) then .stoppedAtBreakpoint else .running }) := by
  simp [State.rewind, hh]

end Sys2Proof.Machine
end

