-- ==== Sys2Proof/Laws/Memory.lean ====
section
/-! SUPPORT. The laws of memory: what a write does to reads, and that every operation keeps the canonical form. -/

namespace Sys2Proof.Machine

@[simp] theorem Memory.read_nil (a : Nat) : Memory.read [] a = Memory.unlisted := rfl

theorem Memory.read_cell (b : Nat) (w : Word) (m : Memory) (a : Nat) :
    Memory.read ((b, w) :: m) a = if a = b then w else Memory.read m a := rfl

@[simp] theorem Memory.wfFrom_nil (lo : Nat) : Memory.wfFrom lo [] = true := rfl

@[simp] theorem Memory.wfFrom_cell (lo a : Nat) (v : Word) (m : Memory) :
    Memory.wfFrom lo ((a, v) :: m) = true ↔
      lo ≤ a ∧ a < Config.memCap ∧ v ≠ Memory.unlisted ∧ Memory.wfFrom (a + 1) m = true := by
  simp [Memory.wfFrom, and_assoc]

/-- The form from a bound holds from every smaller bound. -/
theorem Memory.wfFrom_mono {m : Memory} {lo lo' : Nat} (h : Memory.wfFrom lo m = true) (hle : lo' ≤ lo) :
    Memory.wfFrom lo' m = true := by
  cases m with
  | nil => rfl
  | cons c m =>
    obtain ⟨a, v⟩ := c
    rw [Memory.wfFrom_cell] at h ⊢
    exact ⟨hle.trans h.1, h.2⟩

/-- Below its bound a canonical memory lists nothing. -/
theorem Memory.read_below {m : Memory} {lo a : Nat} (h : Memory.wfFrom lo m = true) (ha : a < lo) :
    Memory.read m a = Memory.unlisted := by
  induction m generalizing lo with
  | nil => rfl
  | cons c m ih =>
    obtain ⟨b, w⟩ := c
    rw [Memory.wfFrom_cell] at h
    rw [Memory.read_cell, if_neg (by omega)]
    exact ih h.2.2.2 (by omega)

/-- A canonical memory lists no address without storage. -/
theorem Memory.read_beyond {m : Memory} {lo a : Nat} (h : Memory.wfFrom lo m = true) (ha : Config.memCap ≤ a) :
    Memory.read m a = Memory.unlisted := by
  induction m generalizing lo with
  | nil => rfl
  | cons c m ih =>
    obtain ⟨b, w⟩ := c
    rw [Memory.wfFrom_cell] at h
    rw [Memory.read_cell, if_neg (by omega)]
    exact ih h.2.2.2

theorem Memory.read_cons_ne (m : Memory) {a b : Nat} (v : Word) (h : b ≠ a) :
    Memory.read (Memory.cons a v m) b = Memory.read m b := by
  unfold Memory.cons
  split
  · rfl
  · rw [Memory.read_cell, if_neg h]

theorem Memory.read_cons_self {m : Memory} {a : Nat} (v : Word) (h : Memory.wfFrom (a + 1) m = true) :
    Memory.read (Memory.cons a v m) a = v := by
  unfold Memory.cons
  split
  · rename_i hv
    rw [Memory.read_below h (Nat.lt_succ_self a), hv]
  · rw [Memory.read_cell, if_pos rfl]

theorem Memory.wfFrom_cons {m : Memory} {lo a : Nat} (v : Word) (h : Memory.wfFrom (a + 1) m = true) (hlo : lo ≤ a)
    (ha : a < Config.memCap) : Memory.wfFrom lo (Memory.cons a v m) = true := by
  unfold Memory.cons
  split
  · exact Memory.wfFrom_mono h (by omega)
  · rename_i hv
    exact (Memory.wfFrom_cell ..).mpr ⟨hlo, ha, hv, h⟩

/-- A write leaves every other address alone, in every memory. -/
theorem Memory.read_write_ne (m : Memory) {a b : Nat} (v : Word) (h : b ≠ a) :
    Memory.read (Memory.write m a v) b = Memory.read m b := by
  induction m with
  | nil => exact Memory.read_cons_ne [] v h
  | cons c m ih =>
    obtain ⟨k, w⟩ := c
    unfold Memory.write
    split
    · exact Memory.read_cons_ne _ v h
    · split
      · rename_i hk
        subst hk
        rw [Memory.read_cons_ne _ v h, Memory.read_cell, if_neg h]
      · simp only [Memory.read_cell, ih]

/-- A read after a write to the same address gives the value written (R32). -/
theorem Memory.read_write_self {m : Memory} {lo a : Nat} (v : Word) (hm : Memory.wfFrom lo m = true) :
    Memory.read (Memory.write m a v) a = v := by
  induction m generalizing lo with
  | nil => exact Memory.read_cons_self v rfl
  | cons c m ih =>
    obtain ⟨k, w⟩ := c
    have hm' := (Memory.wfFrom_cell ..).mp hm
    unfold Memory.write
    split
    · exact Memory.read_cons_self v ((Memory.wfFrom_cell ..).mpr ⟨by omega, hm'.2⟩)
    · split
      · rename_i hk
        subst hk
        exact Memory.read_cons_self v hm'.2.2.2
      · rename_i hk
        rw [Memory.read_cell, if_neg hk]
        exact ih hm'.2.2.2

theorem Memory.wfFrom_write {m : Memory} {lo a : Nat} (v : Word) (hm : Memory.wfFrom lo m = true) (hlo : lo ≤ a)
    (ha : a < Config.memCap) : Memory.wfFrom lo (Memory.write m a v) = true := by
  induction m generalizing lo with
  | nil => exact Memory.wfFrom_cons v rfl hlo ha
  | cons c m ih =>
    obtain ⟨k, w⟩ := c
    have hm' := (Memory.wfFrom_cell ..).mp hm
    unfold Memory.write
    split
    · exact Memory.wfFrom_cons v ((Memory.wfFrom_cell ..).mpr ⟨by omega, hm'.2⟩) hlo ha
    · split
      · rename_i hk
        subst hk
        exact Memory.wfFrom_cons v hm'.2.2.2 hlo ha
      · exact (Memory.wfFrom_cell ..).mpr ⟨hm'.1, hm'.2.1, hm'.2.2.1, ih hm'.2.2.2 (by omega)⟩

/-- A write in range keeps the canonical form. -/
theorem Memory.wf_write {m : Memory} {a : Nat} (v : Word) (hm : m.wf = true) (ha : a < Config.memCap) :
    (Memory.write m a v).wf = true :=
  Memory.wfFrom_write v hm (Nat.zero_le a) ha

/-- A store in range keeps the canonical form. -/
theorem Arch.wf_writeMem {a : Arch} {ea : Word} (v : Word) (ha : a.mem.wf = true) (hea : inRange ea = true) :
    (a.writeMem ea v).mem.wf = true :=
  Memory.wf_write v ha (by simpa [inRange] using hea)

theorem Arch.readMem_writeMem_ne (a : Arch) {ea x : Word} (v : Word) (h : x ≠ ea) :
    (a.writeMem ea v).readMem x = a.readMem x :=
  Memory.read_write_ne a.mem v (fun e => h (BitVec.eq_of_toNat_eq e))

theorem Arch.readMem_writeMem_self {a : Arch} (ea v : Word) (h : a.mem.wf = true) :
    (a.writeMem ea v).readMem ea = v :=
  Memory.read_write_self v h

/-- A loaded memory is canonical, where the program fits. -/
theorem Memory.wfFrom_ofWords (ws : List Word) (a : Nat) (h : a + ws.length ≤ Config.memCap) :
    Memory.wfFrom a (Memory.ofWords a ws) = true := by
  induction ws generalizing a with
  | nil => rfl
  | cons w ws ih =>
    rw [List.length_cons] at h
    exact Memory.wfFrom_cons w (ih (a + 1) (by omega)) (Nat.le_refl a) (by omega)

theorem Memory.wf_ofWords {ws : List Word} (h : Program.wellFormed ws = true) :
    (Memory.ofWords Config.loadBase ws).wf = true :=
  Memory.wfFrom_ofWords ws 0 (by simpa [Program.wellFormed] using h)

/-- A loaded memory lists nothing below its base. -/
theorem Memory.read_ofWords_below (ws : List Word) (a b : Nat) (h : b < a) :
    Memory.read (Memory.ofWords a ws) b = Memory.unlisted := by
  induction ws generalizing a with
  | nil => rfl
  | cons w ws ih =>
    rw [Memory.ofWords, Memory.read_cons_ne _ w (by omega)]
    exact ih (a + 1) (by omega)

/-- What a loaded memory reads: the program's Word, then zero (R36, R100). -/
theorem Memory.read_ofWords (ws : List Word) (a k : Nat) :
    Memory.read (Memory.ofWords a ws) (a + k) = ws.getD k 0 := by
  induction ws generalizing a k with
  | nil => rfl
  | cons w ws ih =>
    cases k with
    | zero =>
      simp only [Memory.ofWords, Memory.cons, Nat.add_zero, List.getD_cons_zero]
      split
      · rename_i hw
        rw [Memory.read_ofWords_below ws _ _ (Nat.lt_succ_self a), hw]
      · rw [Memory.read_cell, if_pos rfl]
    | succ k =>
      rw [Memory.ofWords, Memory.read_cons_ne _ w (by omega), List.getD_cons_succ, ← ih (a + 1) k]
      congr 1
      omega

/-- Canonical memories that read alike are equal data. -/
theorem Memory.ext_read {m n : Memory} {lo : Nat} (hm : Memory.wfFrom lo m = true) (hn : Memory.wfFrom lo n = true)
    (h : ∀ a, Memory.read m a = Memory.read n a) : m = n := by
  induction m generalizing n lo with
  | nil =>
    cases n with
    | nil => rfl
    | cons c n =>
      obtain ⟨b, w⟩ := c
      have hb := h b
      rw [Memory.read_cell, if_pos rfl] at hb
      exact absurd hb.symm ((Memory.wfFrom_cell ..).mp hn).2.2.1
  | cons c m ih =>
    obtain ⟨a, v⟩ := c
    have hm' := (Memory.wfFrom_cell ..).mp hm
    cases n with
    | nil =>
      have ha := h a
      rw [Memory.read_cell, if_pos rfl] at ha
      exact absurd ha hm'.2.2.1
    | cons d n =>
      obtain ⟨b, w⟩ := d
      have hn' := (Memory.wfFrom_cell ..).mp hn
      have hab : a = b := by
        have ha := h a
        have hb := h b
        rw [Memory.read_cell, if_pos rfl, Memory.read_cell] at ha
        rw [Memory.read_cell, Memory.read_cell, if_pos rfl] at hb
        by_contra hne
        rcases Nat.lt_or_gt_of_ne hne with hlt | hlt
        · rw [if_neg hne, Memory.read_below hn'.2.2.2 (by omega)] at ha
          exact hm'.2.2.1 ha
        · rw [if_neg (Ne.symm hne), Memory.read_below hm'.2.2.2 (by omega)] at hb
          exact hn'.2.2.1 hb.symm
      subst hab
      have hvw : v = w := by
        have ha := h a
        rwa [Memory.read_cell, if_pos rfl, Memory.read_cell, if_pos rfl] at ha
      subst hvw
      rw [ih hm'.2.2.2 hn'.2.2.2 fun x => ?_]
      by_cases hx : x = a
      · subst hx
        rw [Memory.read_below hm'.2.2.2 (Nat.lt_succ_self x), Memory.read_below hn'.2.2.2 (Nat.lt_succ_self x)]
      · have := h x
        rwa [Memory.read_cell, if_neg hx, Memory.read_cell, if_neg hx] at this

/-- Power-on memory is canonical. -/
theorem State.reset_mem_wf : State.reset.arch.mem.wf = true := rfl

end Sys2Proof.Machine
end

