-- ==== Sys2Proof/Laws/Ops.lean ====
section
/-! SUPPORT. One spec lemma per shared operation: what ending a step, one instruction, one step and one turn of `RUN`
can do. Proofs cite these and do not unfold the operations. -/

namespace Sys2Proof.Machine

theorem inRange_iff (a : Word) : inRange a = true ↔ a.toNat < Config.memCap := by simp [inRange]

theorem inRange_false_iff (a : Word) : inRange a = false ↔ Config.memCap ≤ a.toNat := by simp [inRange]

theorem State.stopped_iff (s : State) : s.stopped = true ↔ s.status = .halted ∨ s.status = .faulted := by
  unfold State.stopped
  cases s.status <;> simp

theorem State.not_stopped_iff (s : State) : s.stopped = false ↔ s.status ≠ .halted ∧ s.status ≠ .faulted := by
  unfold State.stopped
  cases s.status <;> simp

theorem State.bpHit_iff (s : State) : s.bpHit = true ↔ s.bpValid = true ∧ s.arch.pc = s.bpAddr := by
  simp [State.bpHit]

/-- The unbounded stack keeps everything (R21). -/
@[simp] theorem pushHistory_configured (e : Arch) (h : List Arch) : pushHistory Config.histDepth e h = e :: h := rfl

/-- Everything `executed` does. -/
@[simp] theorem State.executed_eq (s : State) (st : Status) (a : Arch) :
    s.executed st a = .next { s with arch := a, status := st, hist := s.arch :: s.hist } := rfl

/-! ### One instruction -/

/-- The architectural effect of an instruction that executes. -/
def archAfter (i : Instr) (a : Arch) : Arch :=
  match i with
  | .add rx ry rz => (a.setReg rx (aluAdd (a.reg ry) (a.reg rz))).nextPc
  | .nand rx ry rz => (a.setReg rx (aluNand (a.reg ry) (a.reg rz))).nextPc
  | .addi rx ry imm => (a.setReg rx (aluAdd (a.reg ry) (sextImm imm))).nextPc
  | .lw rx ry imm => (a.setReg rx (a.readMem (effectiveAddress a ry imm))).nextPc
  | .sw rx ry imm => (a.writeMem (effectiveAddress a ry imm) (a.reg rx)).nextPc
  | .beq rx ry imm => if aluEqual (a.reg rx) (a.reg ry) then a.setPc (branchTarget a imm) else a.nextPc
  | .jalr rx ry => (a.setReg ry (linkAddress a)).setPc ((a.setReg ry (linkAddress a)).reg rx)
  | .halt => a.nextPc
  | .noop => a.nextPc

/-- The status an instruction that executes leaves. -/
def statusAfter : Instr → Status
  | .halt => .halted
  | .add _ _ _ | .nand _ _ _ | .addi _ _ _ | .lw _ _ _ | .sw _ _ _ | .beq _ _ _ | .jalr _ _ | .noop => .running

/-- The fault an instruction raises in `a`, if it raises one. -/
def faultOf (i : Instr) (a : Arch) : Option (FaultCause × Word) :=
  match i with
  | .lw _ ry imm =>
    if inRange (effectiveAddress a ry imm) then none else some (.loadAddress, effectiveAddress a ry imm)
  | .sw _ ry imm =>
    if inRange (effectiveAddress a ry imm) then none else some (.storeAddress, effectiveAddress a ry imm)
  | .add _ _ _ | .nand _ _ _ | .addi _ _ _ | .beq _ _ _ | .jalr _ _ | .halt | .noop => none

/-- Everything one instruction does: it raises its fault, or executes. -/
theorem exec_eq (i : Instr) (s : State) :
    exec i s = match faultOf i s.arch with
      | some (c, info) => .next (s.raise c info)
      | none => .next { s with arch := archAfter i s.arch, status := statusAfter i, hist := s.arch :: s.hist } := by
  cases i with
  | lw rx ry imm => simp only [exec, execLw, faultOf]; split <;> rfl
  | sw rx ry imm => simp only [exec, execSw, faultOf]; split <;> rfl
  | add | nand | addi | beq | jalr | halt | noop => rfl

/-- What one instruction can do. -/
theorem exec_cases {i : Instr} {s t : State} (h : exec i s = .next t) :
    (∃ c info, faultOf i s.arch = some (c, info) ∧ t = s.raise c info) ∨
    (faultOf i s.arch = none ∧
      t = { s with arch := archAfter i s.arch, status := statusAfter i, hist := s.arch :: s.hist }) := by
  rw [exec_eq] at h
  cases hf : faultOf i s.arch with
  | none => exact .inr ⟨rfl, by simpa [hf] using h.symm⟩
  | some p => exact .inl ⟨p.1, p.2, rfl, by simpa [hf] using h.symm⟩

/-- The faults of an instruction are the two data-address faults, with the address out of range (60 R118). -/
theorem faultOf_eq_some {i : Instr} {a : Arch} {c : FaultCause} {info : Word} (h : faultOf i a = some (c, info)) :
    (∃ rx ry imm, i = .lw rx ry imm ∧ c = .loadAddress ∧ info = effectiveAddress a ry imm
        ∧ Config.memCap ≤ info.toNat) ∨
    (∃ rx ry imm, i = .sw rx ry imm ∧ c = .storeAddress ∧ info = effectiveAddress a ry imm
        ∧ Config.memCap ≤ info.toNat) := by
  cases i with
  | lw rx ry imm =>
    simp only [faultOf] at h
    split at h
    · cases h
    · rename_i hr
      cases h
      exact .inl ⟨rx, ry, imm, rfl, rfl, rfl, (inRange_false_iff _).mp (by simpa using hr)⟩
  | sw rx ry imm =>
    simp only [faultOf] at h
    split at h
    · cases h
    · rename_i hr
      cases h
      exact .inr ⟨rx, ry, imm, rfl, rfl, rfl, (inRange_false_iff _).mp (by simpa using hr)⟩
  | add | nand | addi | beq | jalr | halt | noop => cases h

theorem statusAfter_cases (i : Instr) : statusAfter i = .running ∨ statusAfter i = .halted := by
  cases i <;> simp [statusAfter]

/-- An instruction that executes keeps memory canonical. -/
theorem archAfter_mem_wf {i : Instr} {a : Arch} (h : a.mem.wf = true) (hf : faultOf i a = none) :
    (archAfter i a).mem.wf = true := by
  cases i with
  | sw rx ry imm =>
    have hr : inRange (effectiveAddress a ry imm) = true := by
      simp only [faultOf] at hf
      split at hf
      · assumption
      · cases hf
    exact Arch.wf_writeMem (a.reg rx) h hr
  | beq rx ry imm =>
    simp only [archAfter]
    split <;> exact h
  | add | nand | addi | lw | jalr | halt | noop => exact h

/-! ### Fetch -/

theorem Arch.fetch_instr {a : Arch} {i : Instr} :
    a.fetch = .instr i ↔ a.pc.toNat < Config.memCap ∧ decode (a.readMem a.pc) = .instr i := by
  unfold Arch.fetch
  split
  · rename_i hr
    rw [inRange_iff] at hr
    cases hd : decode (a.readMem a.pc) <;> simp [hr]
  · rename_i hr
    rw [inRange_iff] at hr
    simp [hr]

theorem Arch.fetch_trap {a : Arch} {c : FaultCause} {info : Word} :
    a.fetch = .trap c info ↔
      (c = .fetchAddress ∧ info = a.pc ∧ Config.memCap ≤ a.pc.toNat) ∨
      (c = .reservedEncoding ∧ info = a.readMem a.pc ∧ a.pc.toNat < Config.memCap ∧ decode info = .reserved) := by
  unfold Arch.fetch
  split
  · rename_i hr
    rw [inRange_iff] at hr
    cases hd : decode (a.readMem a.pc) with
    | instr i =>
      simp only [reduceCtorEq, false_iff, not_or]
      exact ⟨fun h => by omega, fun h => by rw [h.2.1, hd] at h; exact absurd h.2.2.2 (by simp)⟩
    | reserved =>
      constructor
      · rintro h
        cases h
        exact .inr ⟨rfl, rfl, hr, hd⟩
      · rintro (h | ⟨rfl, rfl, -, -⟩)
        · omega
        · rfl
  · rename_i hr
    have hr' := (inRange_false_iff _).mp (by simpa using hr)
    constructor
    · rintro h
      cases h
      exact .inl ⟨rfl, rfl, hr'⟩
    · rintro (⟨rfl, rfl, -⟩ | h)
      · rfl
      · omega

/-! ### STEP -/

theorem step_stopped {s : State} (h : s.stopped = true) : step s = .next s := by simp [step, h]

theorem step_instr {s : State} {i : Instr} (h : s.stopped = false) (hf : s.arch.fetch = .instr i) :
    step s = exec i s := by
  simp [step, h, hf]

theorem step_trap {s : State} {c : FaultCause} {info : Word} (h : s.stopped = false)
    (hf : s.arch.fetch = .trap c info) : step s = .next (s.raise c info) := by
  simp [step, h, hf]

/-- Everything one step can do. -/
theorem step_cases {s t : State} (h : step s = .next t) :
    (s.stopped = true ∧ t = s) ∨
    (s.stopped = false ∧ ∃ c info, s.arch.fetch = .trap c info ∧ t = s.raise c info) ∨
    (s.stopped = false ∧ ∃ i, s.arch.fetch = .instr i ∧
      ∃ c info, faultOf i s.arch = some (c, info) ∧ t = s.raise c info) ∨
    (s.stopped = false ∧ ∃ i, s.arch.fetch = .instr i ∧ faultOf i s.arch = none ∧
      t = { s with arch := archAfter i s.arch, status := statusAfter i, hist := s.arch :: s.hist }) := by
  cases hs : s.stopped with
  | true =>
    rw [step_stopped hs] at h
    cases h
    exact .inl ⟨rfl, rfl⟩
  | false =>
    cases hf : s.arch.fetch with
    | trap c info =>
      rw [step_trap hs hf] at h
      cases h
      exact .inr (.inl ⟨rfl, c, info, rfl, rfl⟩)
    | instr i =>
      rw [step_instr hs hf] at h
      rcases exec_cases h with ⟨c, info, hc, rfl⟩ | ⟨hc, rfl⟩
      · exact .inr (.inr (.inl ⟨rfl, i, rfl, c, info, hc, rfl⟩))
      · exact .inr (.inr (.inr ⟨rfl, i, rfl, hc, rfl⟩))

theorem State.stepCommand_of_step {s t : State} (h : step s = .next t) :
    s.stepCommand = .next (if s.stopped then .ignored else t.status.stepResult, t) := by
  simp [State.stepCommand, h]

/-! ### RUN -/

/-- Everything one turn of `RUN` can do, given the step it would make. -/
theorem State.runTurn_of_step {s t : State} (h : step s = .next t) :
    s.runTurn =
      if s.bpHit then .next (.done .breakpointHit { s with status := .stoppedAtBreakpoint })
      else if s.stopped then .next (.done .ignored t)
      else match t.status with
        | .halted => .next (.done .halted t)
        | .faulted => .next (.done .fault t)
        | _ => .next (.again t) := by
  simp only [State.runTurn, State.stepCommand_of_step h]
  cases s.bpHit <;> cases s.stopped <;> cases t.status <;> rfl

theorem State.runLoop_succ (n : Nat) (s : State) :
    State.runLoop (n + 1) s = match s.runTurn with
      | .next (.done r t) => some (r, t)
      | .next (.again t) => State.runLoop n t
      | .fault _ => none
      | .refused _ => none := rfl

end Sys2Proof.Machine
end

