-- ==== Sys2Proof/Laws/PerInstr.lean ====
section
/-! SUPPORT. The family OpField: the encoder puts each instruction's opcode of 30_encoding R52 in bits 15..13. -/

namespace Sys2Proof.Laws.OpField

/-- The opcode map (R52); `noop` is a Word of opcode 0 (R55). -/
def opcode : Instr → BitVec 3
  | .add _ _ _ => 0
  | .nand _ _ _ => 1
  | .addi _ _ _ => 2
  | .lw _ _ _ => 3
  | .sw _ _ _ => 4
  | .beq _ _ _ => 5
  | .jalr _ _ => 6
  | .halt => 7
  | .noop => 0

/-- The encoder writes the opcode of R52. -/
def Statement (i : Instr) : Prop := opField (encode i) = opcode i

/-- No register or low field reaches bits 15..13. -/
theorem opField_base (op : BitVec 3) (rx ry : Reg) (low : Word) (hl : low.toNat < 32) (base : Word)
    (hb : base = op.zeroExtend 16 <<< 13) : opField (encodeRegs base rx ry ||| low) = op := by
  subst hb
  have h13 : low.extractLsb' 13 3 = 0#3 := by
    apply BitVec.eq_of_toNat_eq
    simp only [BitVec.extractLsb'_toNat, BitVec.toNat_ofNat, Nat.shiftRight_eq_div_pow]
    omega
  have hregs : (encodeRegs (op.zeroExtend 16 <<< 13) rx ry).extractLsb' 13 3 = op := by
    revert op
    cases rx <;> cases ry <;> decide
  rw [opField, BitVec.extractLsb'_or, hregs, h13]
  simp

theorem add (rx ry rz : Reg) : Statement (.add rx ry rz) :=
  opField_base 0 rx ry _ (by cases rz <;> decide) 0x0000 rfl

theorem nand (rx ry rz : Reg) : Statement (.nand rx ry rz) :=
  opField_base 1 rx ry _ (by cases rz <;> decide) 0x2000 rfl

theorem addi (rx ry : Reg) (imm : Imm5) : Statement (.addi rx ry imm) :=
  opField_base 2 rx ry _ (by revert imm; decide) 0x4000 rfl

theorem lw (rx ry : Reg) (imm : Imm5) : Statement (.lw rx ry imm) :=
  opField_base 3 rx ry _ (by revert imm; decide) 0x6000 rfl

theorem sw (rx ry : Reg) (imm : Imm5) : Statement (.sw rx ry imm) :=
  opField_base 4 rx ry _ (by revert imm; decide) 0x8000 rfl

theorem beq (rx ry : Reg) (imm : Imm5) : Statement (.beq rx ry imm) :=
  opField_base 5 rx ry _ (by revert imm; decide) 0xA000 rfl

theorem jalr (rx ry : Reg) : Statement (.jalr rx ry) := by
  cases rx <;> cases ry <;> rfl

theorem halt : Statement .halt := rfl

theorem noop : Statement .noop := rfl

end Sys2Proof.Laws.OpField
end

