-- ==== Sys2Proof/Laws/Encoding.lean ====
section
/-! SUPPORT. The encoder's shifted form (30_encoding R57) is the field layout of the figures (R47 to R49); a Word is the
concatenation of its fields; the fields of a concatenation. -/

namespace Sys2Proof

theorem Reg.ofField_toField (r : Reg) : Reg.ofField r.toField = r := by cases r <;> rfl

theorem Reg.toField_ofField (b : BitVec 3) : (Reg.ofField b).toField = b := by revert b; decide

/-- Format R (R47). -/
theorem encodeRegs_formatR (op : BitVec 3) (rx ry rz : Reg) :
    encodeRegs (op.zeroExtend 16 <<< 13) rx ry ||| rz.toField.zeroExtend 16 =
      op ++ rx.toField ++ ry.toField ++ 0b0000#4 ++ rz.toField := by
  unfold encodeRegs
  generalize rx.toField = x
  generalize ry.toField = y
  generalize rz.toField = z
  apply BitVec.eq_of_getLsbD_eq
  intro i hi
  simp only [BitVec.getLsbD_or, BitVec.getLsbD_append, BitVec.getLsbD_shiftLeft, BitVec.zeroExtend,
    BitVec.getLsbD_setWidth]
  interval_cases i <;> simp

/-- Format I (R48). -/
theorem encodeRegs_formatI (op : BitVec 3) (rx ry : Reg) (imm : Imm5) :
    encodeRegs (op.zeroExtend 16 <<< 13) rx ry ||| imm.zeroExtend 16 =
      op ++ rx.toField ++ ry.toField ++ 0b00#2 ++ imm := by
  unfold encodeRegs
  generalize rx.toField = x
  generalize ry.toField = y
  apply BitVec.eq_of_getLsbD_eq
  intro i hi
  simp only [BitVec.getLsbD_or, BitVec.getLsbD_append, BitVec.getLsbD_shiftLeft, BitVec.zeroExtend,
    BitVec.getLsbD_setWidth]
  interval_cases i <;> simp

/-- Format J (R49). -/
theorem encodeRegs_formatJ (op : BitVec 3) (rx ry : Reg) :
    encodeRegs (op.zeroExtend 16 <<< 13) rx ry = op ++ rx.toField ++ ry.toField ++ 0b0000000#7 := by
  unfold encodeRegs
  generalize rx.toField = x
  generalize ry.toField = y
  apply BitVec.eq_of_getLsbD_eq
  intro i hi
  simp only [BitVec.getLsbD_or, BitVec.getLsbD_append, BitVec.getLsbD_shiftLeft, BitVec.zeroExtend,
    BitVec.getLsbD_setWidth]
  interval_cases i <;> simp

theorem word_eq_fieldsR (w : Word) :
    w = opField w ++ rxField w ++ ryField w ++ w.extractLsb' 3 4 ++ rzField w := by
  apply BitVec.eq_of_getLsbD_eq
  intro i hi
  simp only [opField, rxField, ryField, rzField, BitVec.getLsbD_append, BitVec.getLsbD_extractLsb']
  interval_cases i <;> simp

theorem word_eq_fieldsI (w : Word) :
    w = opField w ++ rxField w ++ ryField w ++ w.extractLsb' 5 2 ++ imm5Field w := by
  apply BitVec.eq_of_getLsbD_eq
  intro i hi
  simp only [opField, rxField, ryField, imm5Field, BitVec.getLsbD_append, BitVec.getLsbD_extractLsb']
  interval_cases i <;> simp

theorem word_eq_fieldsJ (w : Word) : w = opField w ++ rxField w ++ ryField w ++ w.extractLsb' 0 7 := by
  apply BitVec.eq_of_getLsbD_eq
  intro i hi
  simp only [opField, rxField, ryField, BitVec.getLsbD_append, BitVec.getLsbD_extractLsb']
  interval_cases i <;> simp

theorem word_eq_fieldsO (w : Word) : w = opField w ++ w.extractLsb' 0 13 := by
  apply BitVec.eq_of_getLsbD_eq
  intro i hi
  simp only [opField, BitVec.getLsbD_append, BitVec.getLsbD_extractLsb']
  interval_cases i <;> simp

/-- The fields of a format R concatenation. -/
theorem fields_formatR (op x y z : BitVec 3) (k : BitVec 4) :
    opField (op ++ x ++ y ++ k ++ z) = op ∧ rxField (op ++ x ++ y ++ k ++ z) = x ∧
      ryField (op ++ x ++ y ++ k ++ z) = y ∧ rzField (op ++ x ++ y ++ k ++ z) = z ∧
      BitVec.extractLsb' 3 4 (op ++ x ++ y ++ k ++ z) = k := by
  refine ⟨?_, ?_, ?_, ?_, ?_⟩ <;>
  · apply BitVec.eq_of_getLsbD_eq
    intro i hi
    simp only [opField, rxField, ryField, rzField, BitVec.getLsbD_append, BitVec.getLsbD_extractLsb']
    interval_cases i <;> simp

/-- The fields of a format I concatenation. -/
theorem fields_formatI (op x y : BitVec 3) (k : BitVec 2) (imm : BitVec 5) :
    opField (op ++ x ++ y ++ k ++ imm) = op ∧ rxField (op ++ x ++ y ++ k ++ imm) = x ∧
      ryField (op ++ x ++ y ++ k ++ imm) = y ∧ imm5Field (op ++ x ++ y ++ k ++ imm) = imm ∧
      BitVec.extractLsb' 5 2 (op ++ x ++ y ++ k ++ imm) = k := by
  refine ⟨?_, ?_, ?_, ?_, ?_⟩ <;>
  · apply BitVec.eq_of_getLsbD_eq
    intro i hi
    simp only [opField, rxField, ryField, imm5Field, BitVec.getLsbD_append, BitVec.getLsbD_extractLsb']
    interval_cases i <;> simp

/-- The fields of a format J concatenation. -/
theorem fields_formatJ (op x y : BitVec 3) (k : BitVec 7) :
    opField (op ++ x ++ y ++ k) = op ∧ rxField (op ++ x ++ y ++ k) = x ∧ ryField (op ++ x ++ y ++ k) = y ∧
      BitVec.extractLsb' 0 7 (op ++ x ++ y ++ k) = k := by
  refine ⟨?_, ?_, ?_, ?_⟩ <;>
  · apply BitVec.eq_of_getLsbD_eq
    intro i hi
    simp only [opField, rxField, ryField, BitVec.getLsbD_append, BitVec.getLsbD_extractLsb']
    interval_cases i <;> simp

end Sys2Proof
end

