-- ==== Sys2Proof/Laws/Assembler.lean ====
section
/-! SUPPORT. One spec lemma per assembler pass: what the immediate field, pass one and pass two can yield. -/

namespace Sys2Proof.Machine.Assembler

/-- The field of an offset in range, and nothing else, is emitted (R51, R62, R63). -/
theorem immField_eq_ok {line : Nat} {n : Int} {imm : Imm5} :
    immField line n = .ok imm ↔ (-16 ≤ n ∧ n ≤ 15) ∧ imm = Imm5.ofInt n := by
  unfold immField
  split <;> simp_all [eq_comm]

/-- An instruction with an immediate yields its one Word. -/
theorem emitImm_eq_ok {line : Nat} {n : Int} {mk : Imm5 → Instr} {out : Assembled} :
    emitImm line n mk = .ok out ↔ (-16 ≤ n ∧ n ≤ 15) ∧ out = .word (encode (mk (Imm5.ofInt n))) := by
  unfold emitImm immField
  split <;> simp_all [Except.map, eq_comm]

/-- The Word that holds the address of a label: the label is bound, and its address is a Word (R64). -/
theorem labelWord_eq_ok {t : Labels} {line : Nat} {name : String} {w : Word} :
    labelWord t line name = .ok w ↔ t.find name = some w.toNat := by
  unfold labelWord
  split
  · simp_all
  · rename_i there hf
    rw [hf, Option.some.injEq]
    split
    · rename_i h
      rw [Except.ok.injEq]
      constructor
      · rintro rfl
        exact (Nat.mod_eq_of_lt h).symm
      · rintro rfl
        exact BitVec.ofNat_toNat .. |>.trans (BitVec.setWidth_eq w)
    · rename_i h
      constructor
      · rintro ⟨⟩
      · rintro rfl
        exact absurd w.isLt h

/-- Whatever the expansion, it has four Words, among them a branch over the data Word that follows it (R67). -/
theorem LaExpansion.words_eq_some {x : LaExpansion} {rx : Reg} {here : Nat} {data : Word} {ws : List Word}
    (h : x.words rx here data = some ws) :
    ws.length = 4 ∧ ∃ d < 3, ws[d]? = some (encode (.beq (x.branchReg rx) (x.branchReg rx) 1)) ∧ ws[d + 1]? = some data := by
  simp only [LaExpansion.words, Option.map_eq_some_iff] at h
  obtain ⟨p, -, rfl⟩ := h
  match x.lead with
  | 0 => exact ⟨rfl, 0, by decide, rfl, rfl⟩
  | 1 => exact ⟨rfl, 1, by decide, rfl, rfl⟩
  | 2 => exact ⟨rfl, 2, by decide, rfl, rfl⟩

/-- Everything a `la` line yields: an expansion is supplied, the symbol is bound to a Word, and the Words are those of
the expansion. -/
theorem emitLa_eq_ok {la : Option LaExpansion} {t : Labels} {here line : Nat} {rx : Reg} {sym : String} {out : Assembled} :
    emitLa la t here line rx sym = .ok out ↔ ∃ x data ws, la = some x ∧ t.find sym = some data.toNat ∧
      x.words rx here data = some ws ∧ out = ⟨ws, []⟩ := by
  unfold emitLa
  cases la with
  | none => simp
  | some x =>
    cases hl : labelWord t line sym with
    | error e =>
      simp only [reduceCtorEq, Option.some.injEq, false_iff]
      rintro ⟨-, data, -, -, hf, -⟩
      rw [labelWord_eq_ok.mpr hf] at hl
      cases hl
    | ok data =>
      have hf := labelWord_eq_ok.mp hl
      cases hw : x.words rx here data with
      | none =>
        simp only [hw, reduceCtorEq, Option.some.injEq, false_iff]
        rintro ⟨x', data', ws, rfl, hf', hw', -⟩
        rw [hf, Option.some.injEq] at hf'
        rw [← BitVec.eq_of_toNat_eq hf', hw] at hw'
        cases hw'
      | some ws =>
        simp only [hw, Except.ok.injEq]
        constructor
        · rintro rfl
          exact ⟨x, data, ws, rfl, hf, hw, rfl⟩
        · rintro ⟨x', data', ws', hx, hf', hw', rfl⟩
          cases hx
          rw [hf, Option.some.injEq] at hf'
          rw [← BitVec.eq_of_toNat_eq hf', hw, Option.some.injEq] at hw'
          rw [hw']

@[simp] theorem emitLine_la (la : Option LaExpansion) (t : Labels) (a line : Nat) (rx : Reg) (sym : String) :
    emitLine la t a line (.la rx sym) = emitLa la t a line rx sym := rfl

@[simp] theorem emitLine_wordLabel (la : Option LaExpansion) (t : Labels) (a line : Nat) (name : String) :
    emitLine la t a line (.word (.label name)) = (labelWord t line name).map .word := rfl

/-- A line yields as many Words as its size says. -/
theorem emitLine_size {la : Option LaExpansion} {t : Labels} {a line : Nat} {op : Operation} {out : Assembled}
    (h : emitLine la t a line op = .ok out) : out.words.length = op.size := by
  have himm : ∀ {n : Int} {mk : Imm5 → Instr}, emitImm line n mk = .ok out → out.words.length = 1 := by
    intro n mk hi
    rw [(emitImm_eq_ok.mp hi).2]
    rfl
  unfold emitLine at h
  split at h
  case h_7 =>
    split at h
    · cases h
    · exact himm h
  case h_12 name =>
    cases hl : labelWord t line name <;> rw [hl] at h <;> cases h
    rfl
  case h_14 =>
    obtain ⟨x, data, ws, -, -, hw, rfl⟩ := emitLa_eq_ok.mp h
    exact (LaExpansion.words_eq_some hw).1
  all_goals first | exact himm h | (cases h <;> rfl)

/-- Pass two on a line and the rest: both yield, and what they yield is joined. -/
theorem emit_cons {la : Option LaExpansion} {t : Labels} {a line : Nat} {l : Line} {ls : List Line} {out : Assembled}
    (h : emit la t a line (l :: ls) = .ok out) :
    ∃ first rest, emitLine la t a line l.op = .ok first ∧ emit la t (a + l.op.size) (line + 1) ls = .ok rest ∧
      out = first.append rest := by
  unfold emit at h
  split at h
  · cases h
  · rename_i first hf
    split at h <;> cases h
    exact ⟨first, _, hf, by assumption, rfl⟩

/-- An assembled source passed both passes. -/
theorem assemble_eq_ok {la : Option LaExpansion} {lines : List Line} {out : Assembled} :
    assemble la lines = .ok out ↔ ∃ t, bindLabels 0 [] lines = .ok t ∧ emit la t 0 0 lines = .ok out := by
  unfold assemble
  cases bindLabels 0 [] lines <;> simp

theorem lineAddress_zero (lines : List Line) : lineAddress lines 0 = 0 := rfl

theorem lineAddress_succ (l : Line) (ls : List Line) (k : Nat) :
    lineAddress (l :: ls) (k + 1) = l.op.size + lineAddress ls k := rfl

/-- Pass two emits what each line yields, from the line's address on. -/
theorem emit_line {la : Option LaExpansion} {t : Labels} {lines : List Line} {a line : Nat} {out : Assembled} (h : emit la t a line lines = .ok out)
    {k : Nat} {l : Line} (hk : lines[k]? = some l) :
    ∃ x, emitLine la t (a + lineAddress lines k) (line + k) l.op = .ok x ∧
      ∀ i < x.words.length, out.words[lineAddress lines k + i]? = x.words[i]? := by
  induction lines generalizing a line out k with
  | nil => cases hk
  | cons m ls ih =>
    obtain ⟨first, rest, hf, hr, rfl⟩ := emit_cons h
    cases k with
    | zero =>
      cases hk
      refine ⟨first, hf, fun i hi => ?_⟩
      rw [lineAddress_zero, Nat.zero_add, Assembled.append, List.getElem?_append_left hi]
    | succ k =>
      obtain ⟨x, hx, hw⟩ := ih hr hk
      refine ⟨x, ?_, fun i hi => ?_⟩
      · rw [lineAddress_succ, ← hx]
        congr 1 <;> omega
      · rw [lineAddress_succ, Assembled.append, List.getElem?_append_right (by rw [emitLine_size hf]; omega), ← hw i hi,
          emitLine_size hf]
        congr 1
        omega

theorem Labels.find_cons (t : Labels) (n m : String) (a : Nat) :
    Labels.find ((n, a) :: t) m = if m = n then some a else t.find m := by
  simp only [Labels.find, List.lookup]
  by_cases h : m = n
  · simp [h]
  · rw [if_neg h, beq_eq_false_iff_ne.mpr h]

/-- Pass one on a line and the rest: the line has at most one label, which is new, and the rest is bound after it. -/
theorem bindLabels_cons {a : Nat} {t u : Labels} {l : Line} {ls : List Line} (h : bindLabels a t (l :: ls) = .ok u) :
    (l.labels = [] ∧ bindLabels (a + l.op.size) t ls = .ok u) ∨
    ∃ name, l.labels = [name] ∧ t.find name = none ∧ bindLabels (a + l.op.size) ((name, a) :: t) ls = .ok u := by
  unfold bindLabels at h
  split at h
  · rename_i hl
    exact .inl ⟨hl, h⟩
  · rename_i name hl
    split at h
    · cases h
    · rename_i hf
      exact .inr ⟨name, hl, hf, h⟩
  · cases h

/-- A label bound before stays bound. -/
theorem bindLabels_keeps {lines : List Line} {a : Nat} {t u : Labels} (h : bindLabels a t lines = .ok u) {name : String}
    {b : Nat} (hb : t.find name = some b) : u.find name = some b := by
  induction lines generalizing a t with
  | nil =>
    cases h
    exact hb
  | cons l ls ih =>
    rcases bindLabels_cons h with ⟨-, hr⟩ | ⟨n, -, hf, hr⟩
    · exact ih hr hb
    · refine ih hr ?_
      rw [Labels.find_cons, if_neg, hb]
      rintro rfl
      simp [hf] at hb

end Sys2Proof.Machine.Assembler
end

