-- ==== Sys2Proof/Laws/Commands.lean ====
section
/-! SUPPORT. What a `STEP` and a turn of `RUN` can leave, and the induction over host commands, packaged once: what every
step and every other command keeps, every command that completes keeps. -/

namespace Sys2Proof.Machine

/-- A `STEP` that answers is a step, and its result is that of the status left, or `Ignored`. -/
theorem State.step_of_stepCommand {s t : State} {r : StepResult} (h : s.stepCommand = .next (r, t)) :
    step s = .next t ∧ r = if s.stopped then .ignored else t.status.stepResult := by
  unfold State.stepCommand at h
  split at h <;> cases h
  exact ⟨by assumption, rfl⟩

/-- A `STEP` with result `Executed` leaves a machine that accepts the next one. -/
theorem State.not_stopped_of_executed {s t : State} (h : s.stepCommand = .next (.executed, t)) : t.stopped = false := by
  have hr := (State.step_of_stepCommand h).2
  split at hr
  · cases hr
  · cases ht : t.status <;> simp [ht, Status.stepResult, State.stopped] at hr ⊢

/-- Everything a turn of `RUN` that ends it can leave. -/
theorem State.runTurn_done {s t : State} {r : RunResult} (h : s.runTurn = .next (.done r t)) :
    t = { s with status := .stoppedAtBreakpoint } ∨ step s = .next t := by
  unfold State.runTurn at h
  split at h
  · cases h
    exact .inl rfl
  · split at h <;> cases h
    all_goals exact .inr (State.step_of_stepCommand (by assumption)).1

/-- A turn of `RUN` that goes round again has executed one step. -/
theorem State.runTurn_again {s t : State} (h : s.runTurn = .next (.again t)) :
    s.bpHit = false ∧ s.stepCommand = .next (.executed, t) := by
  unfold State.runTurn at h
  split at h
  · cases h
  · rename_i hb
    split at h <;> cases h
    exact ⟨by simpa using hb, by assumption⟩

/-- The loop of `RUN` keeps what every step and a stop at the breakpoint keep. -/
theorem State.runLoop_keeps {P : State → Prop} (hstep : ∀ s t, P s → step s = .next t → P t)
    (hbp : ∀ s, s.stopped = false → P s → P { s with status := .stoppedAtBreakpoint }) :
    ∀ (n : Nat) {s t : State} {r : RunResult}, s.stopped = false → P s → State.runLoop n s = some (r, t) → P t
  | 0, _, _, _, _, _, h => nomatch h
  | n + 1, s, t, r, hs, hp, h => by
    rw [State.runLoop_succ] at h
    split at h
    · rename_i hd
      cases h
      rcases State.runTurn_done hd with rfl | hst
      · exact hbp s hs hp
      · exact hstep s _ hp hst
    · rename_i ha
      have he := (State.runTurn_again ha).2
      exact State.runLoop_keeps hstep hbp n (State.not_stopped_of_executed he)
        (hstep s _ hp (State.step_of_stepCommand he).1) h
    · cases h
    · cases h

/-- Every command that completes keeps what every step, a stop at the breakpoint, an accepted `LOAD`, `RESET`, a `REWIND`
of one entry and `SETBP` keep. -/
theorem Completes.keeps {P : State → Prop} (hstep : ∀ s t, P s → step s = .next t → P t)
    (hbp : ∀ s, s.stopped = false → P s → P { s with status := .stoppedAtBreakpoint })
    (hload : ∀ s words, P s → Program.wellFormed words = true → P (s.load words).2)
    (hreset : ∀ s, P s → P s.resetCommand)
    (hrewind : ∀ s e h, P s → s.hist = e :: h → P s.rewind.2)
    (hset : ∀ s a, P s → P (s.setBreakpoint a))
    {c : Command} {s t : State} {resp : Response} (hp : P s) (h : Completes c s resp t) : P t := by
  obtain ⟨n, h⟩ := h
  cases c with
  | load words =>
    cases h
    cases hw : Program.wellFormed words with
    | true => exact hload s words hp hw
    | false => rwa [State.load_refused s hw]
  | step =>
    simp only [Command.perform] at h
    split at h <;> cases h
    exact hstep s _ hp (State.step_of_stepCommand (by assumption)).1
  | run =>
    simp only [Command.perform, Option.map_eq_some_iff, Prod.mk.injEq, Prod.exists] at h
    obtain ⟨r, u, hr, -, rfl⟩ := h
    unfold State.run at hr
    split at hr
    · cases hr
      exact hp
    · rename_i hs
      exact State.runLoop_keeps hstep hbp n (by simpa using hs) hp hr
  | reset =>
    cases h
    exact hreset s hp
  | rewind =>
    cases h
    cases hh : s.hist with
    | nil => rwa [State.rewind_nil hh]
    | cons e l => exact hrewind s e l hp hh
  | setbp a =>
    cases h
    exact hset s a hp
  | disasm a =>
    cases h
    exact hp

end Sys2Proof.Machine
end

