-- ==== Sys2Proof/Tests/Slice0.lean ====
section
/-! SUPPORT. Tests from the spec's own encodings and vectors (95_test_vectors, cited by id), and for every obligation with
hypotheses a witness that meets them. -/

namespace Sys2Proof.Tests

open Sys2Proof.Machine

/-- A running machine with these registers, memory and pc. -/
def at' (rf : RegFile) (mem : Memory) (pc : Word) : State :=
  { State.reset with arch := ⟨rf, mem, pc⟩, status := .running }

/-- The state an outcome leads to. -/
def nextOf (o : Host.Outcome State Fault Refusal) : Option State :=
  match o with
  | .next s => some s
  | .fault _ => none
  | .refused _ => none

/-- What a step leaves in one register, the pc and the status. -/
def stepped (s : State) (r : Reg) : Option (Word × Word × Status) :=
  (nextOf (step s)).map fun t => (t.arch.reg r, t.arch.pc, t.status)

/-! ### Well-formedness smoke: each check refuses an ill-formed term -/

theorem test_wellFormed_refuses_noop : Instr.wellFormed .noop = false := by decide
theorem test_wellFormed_refuses_long_program : Program.wellFormed (List.replicate 16385 0) = false := by
  rw [Program.wellFormed, List.length_replicate]
  rfl

/-! ### Decoding: words written out from the figures of R47 to R50 (vectors E1, E4, E9, E13, E16, E18, E23, E28, E2) -/

theorem test_decode_add : decode 0b0000110010000010 = .instr (.add .r3 .r1 .r2) := by decide
theorem test_decode_nand : decode 0b0010110010000010 = .instr (.nand .r3 .r1 .r2) := by decide
theorem test_decode_addi : decode 0b0100100110010000 = .instr (.addi .r2 .r3 (Imm5.ofInt (-16))) := by decide
theorem test_decode_lw : decode 0b0110101010011101 = .instr (.lw .r2 .r5 (Imm5.ofInt (-3))) := by decide
theorem test_decode_sw : decode 0b1000001100001111 = .instr (.sw .r0 .r6 (Imm5.ofInt 15)) := by decide
theorem test_decode_beq : decode 0b1010010000011110 = .instr (.beq .r1 .r0 (Imm5.ofInt (-2))) := by decide
theorem test_decode_jalr : decode 0b1100011110000000 = .instr (.jalr .r1 .r7) := by decide
theorem test_decode_halt : decode 0b1110000000000000 = .instr .halt := by decide
theorem test_decode_noop_word : encode .noop = 0x0000 ∧ decode 0x0000 = .instr (.add .r0 .r0 .r0) := by decide
/-- Vectors X1, X2, X3, X4, X5, X6, X7, X8, X9, X10, X11, X12. -/
theorem test_decode_reserved :
    [0x0008, 0x0078, 0x2040, 0x4020, 0x6040, 0x8060, 0xA020, 0xC001, 0xC040, 0xE001, 0xFFFF, 0xF000].map decode =
      List.replicate 12 .reserved := by decide
/-- Vectors E7, E17, E22, E25. -/
theorem test_encode :
    [encode (.addi .r1 .r0 (Imm5.ofInt 5)), encode (.sw .r4 .r4 (Imm5.ofInt (-16))),
      encode (.beq .r2 .r3 (Imm5.ofInt (-16))), encode (.jalr .r3 .r3)] = [0x4405, 0x9210, 0xA990, 0xCD80] := by decide

/-! ### One step each -/

/-- Vector V-A2: the carry is lost. -/
theorem test_add_wraps :
    stepped (at' ⟨0xFFFF, 1, 5, 0, 0, 0, 0⟩ [(10, 0x0C82)] 10) .r3 = some (0x0000, 11, .running) := by decide
/-- Vector V-A5: a write to r0 is discarded. -/
theorem test_add_r0 :
    stepped (at' ⟨0x1234, 0x5678, 0, 0, 0, 0, 0⟩ [(10, 0x0082)] 10) .r0 = some (0x0000, 11, .running) := by decide
/-- Vector V-N1. -/
theorem test_nand :
    stepped (at' ⟨0x00FF, 0x0F0F, 0, 0, 0, 0, 0⟩ [(10, 0x2C82)] 10) .r3 = some (0xFFF0, 11, .running) := by decide
/-- Vector V-I3: wraps below zero. -/
theorem test_addi_wraps :
    stepped (at' RegFile.zero [(10, 0x449F)] 10) .r1 = some (0xFFFF, 11, .running) := by decide
/-- Vector V-I5. -/
theorem test_addi_max :
    stepped (at' ⟨0, 0, 0xFFF8, 0, 0, 0, 0⟩ [(10, 0x498F)] 10) .r2 = some (0x0007, 11, .running) := by decide
/-- Vector V-L3: the base is read before it is overwritten. -/
theorem test_lw_base_is_destination :
    stepped (at' ⟨9, 0, 0, 0, 0, 0, 0⟩ [(1, 0x6480), (9, 7)] 1) .r1 = some (7, 2, .running) := by decide
/-- Vector V-L6: the first illegal address. -/
theorem test_lw_faults :
    ((nextOf (step (at' ⟨0x3FF1, 0, 0, 0, 0, 0, 0⟩ [(1, 0x688F)] 1))).map fun t =>
      (t.faultCause.code, t.faultInfo, t.arch.pc, t.hist.length, t.status)) = some (3, 0x4000, 1, 0, .faulted) := by decide
/-- Vector V-S3: the value register is the base register. -/
theorem test_sw :
    ((nextOf (step (at' ⟨0, 0, 0, 0x30, 0, 0, 0⟩ [(1, 0x9210)] 1))).map fun t =>
      (t.arch.readMem 0x20, t.arch.pc, t.hist.length)) = some (0x0030, 2, 1) := by decide
/-- Vector V-S2: storing r0 stores 0, and the canonical memory drops the entry. -/
theorem test_sw_zero :
    ((nextOf (step (at' ⟨0, 0, 0, 0, 0, 0x20, 0⟩ [(1, 0x830F), (0x2F, 0x1234)] 1))).map fun t => t.arch.mem) =
      some [(1, 0x830F)] := by decide
/-- Vector V-B9: the target wraps and the branch itself does not fault. -/
theorem test_beq_wraps :
    stepped (at' RegFile.zero [(0, 0xA010)] 0) .r0 = some (0, 0xFFF1, .running) := by decide
/-- Vector V-B8: all 16 bits are compared. -/
theorem test_beq_not_taken :
    stepped (at' ⟨0, 0x8000, 0x7FFF, 0, 0, 0, 0⟩ [(100, 0xA98F)] 100) .r0 = some (0, 101, .running) := by decide
/-- Vector V-J1. -/
theorem test_jalr_call :
    stepped (at' ⟨5, 0, 0, 0, 0, 0, 0⟩ [(2, 0xC780)] 2) .r7 = some (3, 5, .running) := by decide
/-- Vector V-J3: the link is written before the target is read. -/
theorem test_jalr_same_register :
    stepped (at' ⟨0, 0, 5, 0, 0, 0, 0⟩ [(1, 0xCD80)] 1) .r3 = some (2, 2, .running) := by decide
/-- Vector V-T1. -/
theorem test_halt : stepped (at' RegFile.zero [(4, 0xE000)] 4) .r0 = some (0, 5, .halted) := by decide
/-- R73: the example of `noop`. -/
theorem test_noop :
    ((nextOf (exec .noop (at' ⟨1, 2, 3, 4, 5, 6, 7⟩ [] 5))).map fun t => (t.arch, t.hist.length)) =
      some (⟨⟨1, 2, 3, 4, 5, 6, 7⟩, [], 6⟩, 1) := by decide

/-! ### Fetch and the host's Words -/

/-- Vector F4: the fetch at 16384. -/
theorem test_fetch_fault :
    ((nextOf (step (at' RegFile.zero [] 16384))).map fun t => (t.faultCause.code, t.faultInfo, t.hist.length)) =
      some (1, 0x4000, 0) := by decide
/-- R82 after reset: the placed `halt` runs at once. -/
theorem test_withFetchWord :
    ((nextOf (step (State.reset.withFetchWord 16 0xE000))).map fun t => (t.arch.pc, t.status)) = some (1, .halted) := by
  decide
theorem test_decodeTableWord :
    decodeTableWord 16 0x4405 = some (.addi .r1 .r0 5) ∧ decodeTableWord 16 0x0008 = none := by decide

/-! ### Host commands (vectors H2, H4, H6, H8, H17 on program P1) -/

/-- Program P1 of 95_test_vectors. -/
def p1 : List Word := [0x4405, 0x4800, 0xA403, 0x0901, 0x449F, 0xA01C, 0xE000]

/-- P1 loaded, with the breakpoint of H2. -/
def p1At3 : State := (State.reset.load p1).2.setBreakpoint 3

/-- H2: `RUN` stops at the breakpoint after three steps. -/
theorem test_run_stops_at_breakpoint :
    ((p1At3.run 5).map fun p => (p.1, p.2.arch.reg .r1, p.2.arch.pc, p.2.status, p.2.hist.length)) =
      some (.breakpointHit, 5, 3, .stoppedAtBreakpoint, 3) := by decide
/-- R92: under too little fuel there is no result yet. -/
theorem test_run_needs_fuel : p1At3.run 3 = none := by decide
/-- H6's shape: a rewind away from the breakpoint leaves `Running`. -/
theorem test_rewind :
    ((p1At3.run 5).map fun p => (p.2.rewind.1, p.2.rewind.2.arch.pc, p.2.rewind.2.status, p.2.rewind.2.hist.length)) =
      some (true, 2, .running, 2) := by decide
/-- H8: `RESET` keeps the breakpoint and empties the history. -/
theorem test_reset :
    ((p1At3.run 5).map fun p => (p.2.resetCommand.bpValid, p.2.resetCommand.bpAddr, p.2.resetCommand.hist,
      p.2.resetCommand.arch.readMem 6)) = some (true, 3, [], 0xE000) := by decide
/-- H17. -/
theorem test_disasm :
    p1At3.disasm 3 = some ⟨3, 0x0901, .instr (.add .r2 .r2 .r1)⟩ ∧ p1At3.disasm 16384 = none := by decide
/-- R24: the observation port of the power-on state. -/
theorem test_observe :
    State.reset.observe = ⟨[0, 0, 0, 0, 0, 0, 0, 0], 0, .loaded, false, 0, 0, 0, 0⟩ ∧
      State.reset.observeMem 16384 = none := by decide
/-- R21 for a capped stack of two entries: the oldest is dropped. -/
theorem test_capped_history : (pushHistory (some 2) ⟨RegFile.zero, [], 2⟩
    [⟨RegFile.zero, [], 1⟩, ⟨RegFile.zero, [], 0⟩]).map (fun a => a.pc) = [2, 1] := by decide

/-! ### The assembler boundary (examples S2, S7) -/

/-- S2: the source's own loop. -/
theorem test_assemble_loop :
    Assembler.assemble none [⟨["loop"], .add .r1 .r1 .r1⟩, ⟨[], .beq .r1 .r0 (.label "loop")⟩] =
      .ok ⟨[0x0481, 0xA41E], []⟩ := by decide
/-- S7: `.word` of a label is its address. -/
theorem test_assemble_word_label :
    Assembler.assemble none [⟨[], .noop⟩, ⟨["data"], .halt⟩, ⟨[], .word (.label "data")⟩] =
      .ok ⟨[0x0000, 0xE000, 0x0001], []⟩ := by decide
/-- R60: a second label on one line. -/
theorem test_assemble_second_label :
    Assembler.assemble none [⟨["a", "b"], .halt⟩] = .error .duplicateLabel := by decide
/-- R66: a directive is reported and assembly goes on. -/
theorem test_assemble_directive :
    Assembler.assemble none [⟨[], .unsupported⟩, ⟨["a"], .halt⟩, ⟨[], .word (.label "a")⟩] =
      .ok ⟨[0xE000, 0x0000], [.unsupportedDirective 0]⟩ := by decide
/-- An expansion for the tests alone, for a `la` at a low address (N7): branch, data, a load of it, and a no-op. -/
def lowLa : Assembler.LaExpansion where
  lead := 0
  branchReg _ := .r0
  others rx here _ := if here < 15 then some (encode (.lw rx .r0 (Imm5.ofInt (here + 1))), 0x0000) else none

/-- A `la` with a label after it. -/
def laSource : List Assembler.Line := [⟨[], .la .r1 "a"⟩, ⟨["a"], .halt⟩]

/-- R67 and S4: the branch over the data Word is `beq r0, r0, 1`, the data Word is the symbol's address, and the label
after the four Words is at address 4. -/
theorem test_assemble_la :
    Assembler.assemble (some lowLa) laSource = .ok ⟨[0xA001, 0x0004, 0x6401, 0x0000, 0xE000], []⟩ := by decide
/-- The branch may compare the register of the `la`: `beq r1, r1, 1`. -/
theorem test_assemble_la_own_register :
    Assembler.assemble (some { lowLa with branchReg := id }) laSource =
      .ok ⟨[0xA481, 0x0004, 0x6401, 0x0000, 0xE000], []⟩ := by decide
/-- D25: no expansion supplied. -/
theorem test_assemble_la_refused : Assembler.assemble none laSource = .error (.laExpansionOpen 0) := by decide
/-- Log entry 8: a label's address that is no Word is refused by name. -/
theorem test_assemble_word_beyond :
    Assembler.emitLine none [("far", 65536), ("last", 65535)] 0 7 (.word (.label "far")) = .error (.wordValueOpen 65536 7) ∧
    Assembler.emitLine none [("far", 65536), ("last", 65535)] 0 7 (.word (.label "last")) = .ok ⟨[0xFFFF], []⟩ := by decide

/-! ### Witnesses: a concrete state and operands for the hypotheses of each obligation, one for each clause -/

theorem witness_MemoryReadsLastWrite :
    ∃ (a : Arch) (ws : List (Word × Word)), a.mem.wf = true ∧ ws ≠ [] ∧ ∀ p ∈ ws, p.1.toNat < 16384 :=
  ⟨⟨RegFile.zero, [(0, 1)], 0⟩, [(16383, 5), (0, 0)], by decide, by decide, by simp⟩

theorem witness_PowerOnState : ∃ s : State, s.bpAddr = 0 ∧ s ≠ State.reset :=
  ⟨at' ⟨1, 2, 3, 4, 5, 6, 7⟩ [(3, 4)] 9, by decide⟩

theorem witness_DecodeOfEncode : ∃ i : Instr, i.wellFormed = true := ⟨.sw .r7 .r7 (-16), rfl⟩

theorem witness_EncoderInvertsDecoder : ∃ n : Int, -16 ≤ n ∧ n ≤ 15 ∧ n < 0 := ⟨-16, by decide⟩

theorem witness_ReservedBitsByFormat :
    ∃ s : State, s.stopped = false ∧ s.arch.pc.toNat < 16384 ∧ decode (s.arch.readMem s.arch.pc) = .reserved :=
  ⟨at' RegFile.zero [(16383, 0xF000)] 16383, by decide⟩

theorem witness_ReservedIffNoPattern :
    ∃ (w p q : Word × Word), w.1 &&& p.1 = p.2 ∧ w.1 &&& q.1 = q.2 ∧ p = (0xFFFF, 0xE000) ∧ q = (0xFFFF, 0xE000) :=
  ⟨(0xE000, 0), (0xFFFF, 0xE000), (0xFFFF, 0xE000), by decide⟩

theorem witness_ImmediateIsSignExtended : (-16 : Int) ≤ -16 ∧ (-16 : Int) ≤ 15 ∧ (-16 : Int) ≤ 15 ∧ (15 : Int) ≤ 15 := by
  decide

/-- The first and last addresses with storage, the first without. -/
theorem witness_LwSw_addresses :
    (effectiveAddress (at' ⟨0xFFFF, 0, 0, 0, 0, 0, 0⟩ [] 0).arch .r1 1).toNat = 0 ∧
    (effectiveAddress (at' ⟨0x3FF0, 0, 0, 0, 0, 0, 0⟩ [] 0).arch .r1 15).toNat = 16383 ∧
    (effectiveAddress (at' ⟨0x3FF1, 0, 0, 0, 0, 0, 0⟩ [] 0).arch .r1 15).toNat = 16384 := by decide

theorem witness_SwResultFaultAndFrame : (at' ⟨0x3FF0, 0, 0, 0, 0, 0, 0⟩ [(2, 1)] 0).arch.mem.wf = true := by decide

theorem witness_EffectiveAddressWraps :
    (∃ s t : State, exec (.lw .r2 .r1 15) s = .next t ∧ t.status = .faulted) ∧
    (∃ s t : State, exec (.sw .r2 .r1 15) s = .next t ∧ t.status ≠ .faulted) :=
  ⟨⟨at' ⟨0x3FF1, 0, 0, 0, 0, 0, 0⟩ [] 0, _, rfl, rfl⟩, ⟨at' ⟨0x3FF0, 0, 0, 0, 0, 0, 0⟩ [] 0, _, rfl, by decide⟩⟩

theorem witness_HaltStopsAndFrame : ∃ s : State, s.stopped = false ∧ s.arch.fetch = .instr .halt :=
  ⟨at' RegFile.zero [(4, 0xE000)] 4, by decide⟩

theorem witness_RegistersReadAndWritten :
    ∃ s s' t t' : State, exec (.addi .r1 .r2 1) s = .next t ∧ exec (.addi .r1 .r2 1) s' = .next t' ∧
      s.arch.pc = s'.arch.pc ∧ s.arch.mem = s'.arch.mem ∧ s.arch.reg .r2 = s'.arch.reg .r2 ∧
      s.arch.reg .r5 ≠ s'.arch.reg .r5 ∧ t.status ≠ .faulted :=
  ⟨at' ⟨0, 7, 0, 0, 1, 0, 0⟩ [] 3, at' ⟨0, 7, 0, 0, 2, 0, 0⟩ [] 3, _, _, rfl, rfl, by decide, by decide, by decide,
    by decide, by decide⟩

theorem witness_StepRunsDecodedInstruction :
    ∃ s : State, s.status ≠ .halted ∧ s.status ≠ .faulted ∧ s.arch.pc.toNat < 16384 ∧
      decode (s.arch.readMem s.arch.pc) = .instr (.add .r1 .r1 .r1) :=
  ⟨at' RegFile.zero [(16383, 0x0481)] 16383, by decide⟩

/-- One witness for each line of R85: ignored, causes 1 to 4, an executed `lw` at its last address, an executed `halt`. -/
theorem witness_StepFollowsItsAlgorithm :
    (State.raise State.reset .fetchAddress 0).status = .faulted ∧
    16384 ≤ (at' RegFile.zero [] 16384).arch.pc.toNat ∧
    decode ((at' RegFile.zero [(16383, 0x0008)] 16383).arch.readMem 16383) = .reserved ∧
    (decode ((at' ⟨0x3FF1, 0, 0, 0, 0, 0, 0⟩ [(1, 0x688F)] 1).arch.readMem 1) = .instr (.lw .r2 .r1 15) ∧
      16384 ≤ (effectiveAddress (at' ⟨0x3FF1, 0, 0, 0, 0, 0, 0⟩ [(1, 0x688F)] 1).arch .r1 15).toNat) ∧
    (decode ((at' ⟨0x4000, 0, 0, 0, 0, 0, 0⟩ [(1, 0x8480)] 1).arch.readMem 1) = .instr (.sw .r1 .r1 0) ∧
      16384 ≤ (effectiveAddress (at' ⟨0x4000, 0, 0, 0, 0, 0, 0⟩ [(1, 0x8480)] 1).arch .r1 0).toNat) ∧
    (decode ((at' ⟨0x3FF0, 0, 0, 0, 0, 0, 0⟩ [(1, 0x688F)] 1).arch.readMem 1) = .instr (.lw .r2 .r1 15) ∧
      (effectiveAddress (at' ⟨0x3FF0, 0, 0, 0, 0, 0, 0⟩ [(1, 0x688F)] 1).arch .r1 15).toNat < 16384) ∧
    decode ((at' RegFile.zero [(4, 0xE000)] 4).arch.readMem 4) = .instr .halt := by decide

theorem witness_StoppedMachineIgnoresStepAndRun :
    (∃ s : State, s.status = .halted) ∧ (∃ s : State, s.status = .faulted) ∧ Status.accepts .loaded ∧
      Status.accepts .running ∧ Status.accepts .stoppedAtBreakpoint :=
  ⟨⟨{ State.reset with status := .halted }, rfl⟩, ⟨State.raise State.reset .fetchAddress 0, rfl⟩, .inl rfl,
    .inr (.inl rfl), .inr (.inr rfl)⟩

/-- Steps that raise each of the four faults (vectors F4, X1, V-L6, V-S5). -/
theorem witness_FaultsAreTheTabledOnes :
    ([at' RegFile.zero [] 16384, at' RegFile.zero [(16383, 0x0008)] 16383,
      at' ⟨0x3FF1, 0, 0, 0, 0, 0, 0⟩ [(1, 0x688F)] 1, at' ⟨0x4000, 0, 0, 0, 0, 0, 0⟩ [(1, 0x8480)] 1].map fun s =>
        (s.stopped, (nextOf (step s)).map fun t => (t.status, t.faultCause.code))) =
      [(false, some (.faulted, 1)), (false, some (.faulted, 2)), (false, some (.faulted, 3)),
        (false, some (.faulted, 4))] := by decide

theorem witness_FaultsAreTheTabledOnes_commands :
    (∃ s resp t, Completes .step s resp t ∧ s.status ≠ .faulted ∧ t.status = .faulted) ∧
    (∃ s resp t, Completes .run s resp t ∧ s.status ≠ .faulted ∧ t.status = .faulted) :=
  ⟨⟨at' RegFile.zero [] 16384, _, _, ⟨0, rfl⟩, by decide, rfl⟩, ⟨at' RegFile.zero [] 16384, _, _, ⟨1, rfl⟩, by decide, rfl⟩⟩

theorem witness_FaultsArePrecise :
    ∃ s t : State, s.stopped = false ∧ step s = .next t ∧ t.status = .faulted ∧ s.bpHit = false :=
  ⟨at' RegFile.zero [(3, 0xFFFF)] 3, _, rfl, rfl, rfl, rfl⟩

theorem witness_OnlySwWritesMemory :
    ∃ s t : State, step s = .next t ∧ t.arch.readMem 0x20 ≠ s.arch.readMem 0x20 :=
  ⟨at' ⟨0, 0, 0, 0x30, 0, 0, 0⟩ [(1, 0x9210)] 1, _, rfl, by decide⟩

theorem witness_OtherInstructionsAdvancePc :
    (∃ s t : State, s.stepCommand = .next (.executed, t) ∧ s.arch.fetch = .instr (.add .r1 .r1 .r1)) ∧
    (∃ s t : State, s.stepCommand = .next (.executedHalt, t) ∧ s.arch.fetch = .instr .halt) :=
  ⟨⟨at' RegFile.zero [(16383, 0x0481)] 16383, _, rfl, by decide⟩, ⟨at' RegFile.zero [(4, 0xE000)] 4, _, rfl, by decide⟩⟩

theorem witness_ProgramCannotSeeDebugState :
    ∃ s s' t t' : State, s.arch = s'.arch ∧ s ≠ s' ∧ s.stopped = false ∧ s'.stopped = false ∧
      s.stepCommand = .next (.fault, t) ∧ s'.stepCommand = .next (.fault, t') :=
  ⟨at' RegFile.zero [] 16384, (at' RegFile.zero [] 16384).setBreakpoint 5, _, _, rfl, by decide, rfl, rfl, rfl, rfl⟩

theorem witness_AcceptingStatusesBehaveAlike :
    ∃ s : State, Status.accepts .loaded ∧ Status.accepts .stoppedAtBreakpoint ∧ s.hist ≠ [] :=
  ⟨{ State.reset with hist := [State.reset.arch] }, .inl rfl, .inr (.inr rfl), by decide⟩

theorem witness_StoreIsSeenByTheNextFetch :
    ∃ s t : State, s.arch.mem.wf = true ∧ s.stopped = false ∧ s.arch.fetch = .instr (.sw .r1 .r0 2) ∧
      effectiveAddress s.arch .r0 2 = s.arch.pc + 1 ∧ (s.arch.pc + 1).toNat < 16384 ∧ step s = .next t ∧
      decode (s.arch.reg .r1) = .instr (.addi .r2 .r0 9) :=
  ⟨at' ⟨0x4809, 0, 0, 0, 0, 0, 0⟩ [(1, 0x8402), (2, 0xE000)] 1, _, by decide, by decide, by decide, by decide, by decide,
    rfl, by decide⟩

/-- A running machine two steps in meets the invariant. -/
theorem inv_running :
    State.Inv { at' ⟨5, 0, 0, 0, 0, 0, 0⟩ [(0, 0x4405)] 1 with hist := [⟨RegFile.zero, [(0, 0x4405)], 0⟩] } where
  mem_wf := by decide
  hist_wf := by decide
  image_fits := by decide
  cause_iff := by decide
  recorded := rfl
  loaded_empty := by decide
  halted_nonempty := by decide

theorem witness_StepKeepsInvariant : ∃ s t : State, s.Inv ∧ step s = .next t ∧ t ≠ s :=
  ⟨_, _, inv_running, rfl, by decide⟩

/-- So does one that a `RUN` takes one step further, to the fault of the fetch at 16384. -/
theorem inv_running_at_end : State.Inv (at' RegFile.zero [] 16383) where
  mem_wf := by decide
  hist_wf := by decide
  image_fits := by decide
  cause_iff := by decide
  recorded := rfl
  loaded_empty := by decide
  halted_nonempty := by decide

/-- Every command completes from a state that meets the invariant. -/
theorem witness_CommandsKeepInvariant :
    ∀ c ∈ [Command.load p1, .step, .run, .reset, .rewind, .setbp 7, .disasm 3], ∃ s resp t,
      State.Inv s ∧ Completes c s resp t := by
  intro c hc
  simp only [List.mem_cons, List.not_mem_nil, or_false] at hc
  rcases hc with rfl | rfl | rfl | rfl | rfl | rfl | rfl
  case inr.inr.inl => exact ⟨_, _, _, inv_running_at_end, 2, rfl⟩
  all_goals exact ⟨_, _, _, inv_running, 0, rfl⟩

theorem witness_FaultRegistersZeroUnlessFaulted :
    (∃ s : State, Reachable s ∧ s.status = .faulted) ∧ ∃ s : State, Reachable s ∧ s.status ≠ .faulted :=
  ⟨⟨_, .command (c := .step) (.command (c := .load [0x0008]) .powerOn ⟨0, rfl⟩) ⟨0, rfl⟩, rfl⟩,
    ⟨_, .powerOn, by decide⟩⟩

/-- A machine that `addi r1, r0, 5` at address 0 has led to, about to execute another one. -/
def afterAddi : State :=
  { at' ⟨5, 0, 0, 0, 0, 0, 0⟩ [(0, 0x4405), (1, 0x4405)] 1 with
    hist := [⟨RegFile.zero, [(0, 0x4405), (1, 0x4405)], 0⟩] }

theorem traced_afterAddi : afterAddi.Traced :=
  ⟨⟨at' RegFile.zero [(0, 0x4405), (1, 0x4405)] 0, _, .executed, rfl, rfl, .inl rfl, rfl⟩, trivial⟩

theorem witness_HistoryIsTheExecutionTrace :
    (∃ s t : State, s.Traced ∧ s.hist ≠ [] ∧ step s = .next t ∧ t ≠ s) ∧
    ∀ c ∈ [Command.load p1, .step, .run, .reset, .rewind, .setbp 7, .disasm 3], ∃ s resp t,
      State.Traced s ∧ s.hist ≠ [] ∧ Completes c s resp t := by
  refine ⟨⟨afterAddi, _, traced_afterAddi, by decide, rfl, by decide⟩, fun c hc => ?_⟩
  simp only [List.mem_cons, List.not_mem_nil, or_false] at hc
  rcases hc with rfl | rfl | rfl | rfl | rfl | rfl | rfl
  case inr.inr.inl =>
    exact ⟨afterAddi.setBreakpoint 1, _, _, traced_afterAddi, by decide, 1, rfl⟩
  all_goals exact ⟨afterAddi, _, _, traced_afterAddi, by decide, 0, rfl⟩

/-- A machine that the `halt` at address 4 has stopped. -/
def afterHalt : State :=
  { at' RegFile.zero [(4, 0xE000)] 5 with status := .halted, hist := [⟨RegFile.zero, [(4, 0xE000)], 4⟩] }

theorem haltedByHalt_afterHalt : afterHalt.HaltedByHalt :=
  fun _ => ⟨_, _, rfl, by decide, by decide, rfl⟩

theorem witness_HaltedMeansHaltExecuted :
    (∃ s t : State, s.HaltedByHalt ∧ s.status ≠ .halted ∧ step s = .next t ∧ t.status = .halted) ∧
    ∀ c ∈ [Command.load p1, .step, .run, .reset, .rewind, .setbp 7, .disasm 3], ∃ s resp t,
      State.HaltedByHalt s ∧ s.status = .halted ∧ Completes c s resp t := by
  refine ⟨⟨at' RegFile.zero [(4, 0xE000)] 4, _, fun h => absurd h (by decide), by decide, rfl, rfl⟩, fun c hc => ?_⟩
  simp only [List.mem_cons, List.not_mem_nil, or_false] at hc
  rcases hc with rfl | rfl | rfl | rfl | rfl | rfl | rfl
  all_goals exact ⟨afterHalt, _, _, haltedByHalt_afterHalt, rfl, 0, rfl⟩

/-- `RUN` returns each of its results: at once at a breakpoint, after a `halt`, after a fault, ignored. -/
theorem witness_RunReturns :
    (∃ s t : State, s.stopped = false ∧ s.bpHit = true ∧ RunReturns s .breakpointHit t) ∧
    (∃ s t : State, s.stopped = false ∧ RunReturns s .halted t) ∧
    (∃ s t : State, s.stopped = false ∧ RunReturns s .fault t) ∧
    (∃ s t : State, s.stopped = true ∧ RunReturns s .ignored t) :=
  ⟨⟨State.reset.setBreakpoint 0, _, rfl, rfl, .done rfl⟩,
    ⟨at' RegFile.zero [(0, 0x4405), (1, 0xE000)] 0, _, rfl, .again rfl (.done rfl)⟩,
    ⟨at' RegFile.zero [] 16383, _, rfl, .again rfl (.done rfl)⟩,
    ⟨{ State.reset with status := .halted }, _, rfl, rfl, rfl⟩⟩

theorem witness_BreakpointStopsRunButNotStep :
    ∃ s t : State, s.stopped = false ∧ s.bpHit = true ∧ s.stepCommand = .next (.executed, t) :=
  ⟨State.reset.setBreakpoint 0, _, rfl, rfl, rfl⟩

theorem witness_LoadReplacesProgram :
    ([] : List Word).length ≤ 16384 ∧ (List.replicate 16384 (0 : Word)).length ≤ 16384 ∧
      (0 : Word).toNat < 16384 ∧ (16383 : Word).toNat < 16384 := by
  rw [List.length_replicate]
  decide

theorem witness_LoadRefusesTooLongProgram : 16384 < (List.replicate 16385 (0 : Word)).length := by
  rw [List.length_replicate]
  decide

/-- Branch and jump targets beyond memory, for the last clause of BeqTargetAndFrame and of JalrLinkTargetAndFrame. -/
theorem witness_targets_beyond_memory :
    (∃ t : State, exec (.beq .r0 .r0 (-16)) (at' RegFile.zero [] 0) = .next t ∧ 16384 ≤ t.arch.pc.toNat) ∧
    (∃ t : State, exec (.jalr .r1 .r7) (at' ⟨0x4000, 0, 0, 0, 0, 0, 0⟩ [] 0) = .next t ∧ 16384 ≤ t.arch.pc.toNat) :=
  ⟨⟨_, rfl, by decide⟩, ⟨_, rfl, by decide⟩⟩

theorem witness_ResetIsLoadOfImage : ∃ s : State, s.image.length ≤ 16384 ∧ s.image ≠ [] := ⟨p1At3, by decide⟩

theorem witness_RewindPopsOneEntry :
    (∃ s : State, s.hist = []) ∧
      ∃ (s : State) (e : Arch) (h : List Arch), s.hist = e :: h ∧ s.bpValid = true ∧ e.pc = s.bpAddr :=
  ⟨⟨State.reset, rfl⟩, ⟨{ p1At3 with hist := [⟨RegFile.zero, [], 3⟩] }, _, _, rfl, rfl, rfl⟩⟩

theorem witness_RewindUndoesStep :
    (∃ s t : State, s.stepCommand = .next (.executed, t)) ∧ ∃ s t : State, s.stepCommand = .next (.executedHalt, t) :=
  ⟨⟨at' RegFile.zero [] 16383, _, rfl⟩, ⟨at' RegFile.zero [(4, 0xE000)] 4, _, rfl⟩⟩

theorem witness_RewindAfterFaultUndoesLastExecuted :
    (∃ s t : State, s.stepCommand = .next (.fault, t) ∧ s.hist = []) ∧
      ∃ (s t : State) (e : Arch) (h : List Arch), s.stepCommand = .next (.fault, t) ∧ s.hist = e :: h :=
  ⟨⟨at' RegFile.zero [] 16384, _, rfl, rfl⟩,
    ⟨{ at' RegFile.zero [] 16384 with hist := [⟨RegFile.zero, [], 16383⟩] }, _, _, _, rfl, rfl⟩⟩

theorem witness_DisassembleIsReadOnly :
    (∃ s resp t, Completes (.disasm 16383) s resp t) ∧ (∃ s resp t, Completes (.disasm 16384) s resp t) ∧
      (16383 : Word).toNat < 16384 ∧ 16384 ≤ (16384 : Word).toNat :=
  ⟨⟨p1At3, _, _, 0, rfl⟩, ⟨p1At3, _, _, 0, rfl⟩, by decide, by decide⟩

/-- Clauses of StatusTransitions beside those of `inv_running`: `RUN`, and a `REWIND` that fails. -/
theorem witness_StatusTransitions :
    (∃ s resp t, State.Inv s ∧ Completes .run s resp t ∧ t.status = .stoppedAtBreakpoint) ∧
    (∃ s resp t, State.Inv s ∧ Completes .rewind s resp t ∧ resp = .ok true) ∧
    (∃ s resp t, State.Inv s ∧ Completes .rewind s resp t ∧ resp = .ok false) ∧
    (∃ s resp t, State.Inv s ∧ Completes (.setbp 9) s resp t) := by
  have h : State.Inv ((at' ⟨1, 0, 0, 0, 0, 0, 0⟩ [] 0).setBreakpoint 0) :=
    ⟨by decide, by decide, by decide, by decide, rfl, by decide, by decide⟩
  exact ⟨⟨_, _, _, h, ⟨1, rfl⟩, rfl⟩, ⟨_, _, _, inv_running, ⟨0, rfl⟩, rfl⟩, ⟨_, _, _, h, ⟨0, rfl⟩, rfl⟩,
    ⟨_, _, _, h, 0, rfl⟩⟩

theorem witness_BreakpointAndImageWriters :
    (∃ c s resp t, Completes c s resp t ∧ t.bpAddr ≠ s.bpAddr ∧ s.bpValid = false ∧ t.bpValid = true) ∧
    (∃ c s resp t, Completes c s resp t ∧ s.bpValid = true ∧ t.bpValid = false ∧ t.image ≠ s.image) :=
  ⟨⟨.setbp 7, State.reset, _, _, ⟨0, rfl⟩, by decide, rfl, rfl⟩,
    ⟨.load [0xE000], p1At3, _, _, ⟨0, rfl⟩, rfl, rfl, by decide⟩⟩

theorem witness_HistoryDepthCounts :
    (∃ s t, Completes .step s (.step .executed) t) ∧ (∃ s t, Completes .rewind s (.ok true) t) ∧
    (∃ s t, Completes .rewind s (.ok false) t) ∧ (∃ s resp t, Completes .reset s resp t) ∧
    (∃ s resp t, Completes (.load p1) s resp t) ∧ (∃ s resp t, Completes (.setbp 1) s resp t) ∧
    (∃ s t, Completes .run s (.run .breakpointHit) t ∧ t.hist.length = s.hist.length + 1) ∧
    (∃ s t, Completes .run s (.run .halted) t ∧ t.hist.length = s.hist.length + 2) ∧
    (∃ s t, Completes .run s (.run .fault) t ∧ t.hist.length = s.hist.length + 1) ∧
    (∃ s t, Completes .run s (.run .ignored) t) :=
  ⟨⟨State.reset, _, 0, rfl⟩, ⟨{ p1At3 with hist := [⟨RegFile.zero, [], 3⟩] }, _, 0, rfl⟩, ⟨State.reset, _, 0, rfl⟩,
    ⟨State.reset, _, _, 0, rfl⟩, ⟨State.reset, _, _, 0, rfl⟩, ⟨State.reset, _, _, 0, rfl⟩,
    ⟨State.reset.setBreakpoint 1, _, ⟨2, rfl⟩, rfl⟩,
    ⟨at' RegFile.zero [(0, 0x4405), (1, 0xE000)] 0, _, ⟨2, rfl⟩, rfl⟩,
    ⟨at' RegFile.zero [] 16383, _, ⟨2, rfl⟩, rfl⟩, ⟨afterHalt, _, 0, rfl⟩⟩

theorem witness_CappedHistoryKeepsNewest : (1 : Nat) < 2 := by decide

theorem witness_PlacedWordRunsNext :
    ∃ (s : State) (w : Nat) (i : Instr), s.arch.mem.wf = true ∧ decodeTableWord 16 w = some i ∧ s.status = .faulted :=
  ⟨State.raise (at' RegFile.zero [(1, 5)] 16384) .fetchAddress 16384, 0x4405, .addi .r1 .r0 5, by decide⟩

/-- The farthest label a branch at 15 reaches backward, and one beyond (example S3). -/
theorem witness_AssembledBranchLandsOnItsLabel :
    Assembler.emitLine none [("top", 0)] 15 0 (.beq .r0 .r0 (.label "top")) = .ok ⟨[0xA010], []⟩ ∧
    Assembler.emitLine none [("top", 0)] 16 0 (.beq .r0 .r0 (.label "top")) = .error (.offsetTooLarge (-17) 0) := by decide

/-- A source with a directive, a label and a branch back to it. -/
def loopSource : List Assembler.Line := [⟨["a"], .halt⟩, ⟨[], .unsupported⟩, ⟨[], .beq .r0 .r0 (.label "a")⟩]

theorem loopSource_assembles : Assembler.assemble none loopSource = .ok ⟨[0xE000, 0xA01E], [.unsupportedDirective 1]⟩ := by
  decide

theorem witness_AssembledBranchLandsOnItsLabel_source :
    ∃ (out : Assembler.Assembled) (here there : Assembler.Line) (a : Arch), Assembler.assemble none loopSource = .ok out ∧
      loopSource[2]? = some here ∧ here.op = .beq .r0 .r0 (.label "a") ∧ loopSource[0]? = some there ∧
      "a" ∈ there.labels ∧ a.pc.toNat = Assembler.lineAddress loopSource 2 ∧
      Assembler.lineAddress loopSource 0 < 65536 :=
  ⟨_, _, _, ⟨RegFile.zero, [], 1⟩, loopSource_assembles, rfl, rfl, rfl, by decide, by decide, by decide⟩

theorem witness_AssembledLengthIsTheLinesSizes :
    (∃ out, Assembler.assemble none loopSource = .ok out) ∧
    (∃ (out : Assembler.Assembled) (here there : Assembler.Line), Assembler.assemble (some lowLa) laSource = .ok out ∧
      laSource[0]? = some here ∧ here.op = .la .r1 "a" ∧ laSource[1]? = some there ∧ "a" ∈ there.labels) ∧
    ∃ l ∈ laSource, l.op = .la .r1 "a" :=
  ⟨⟨_, loopSource_assembles⟩, ⟨_, _, _, test_assemble_la, rfl, rfl, rfl, by decide⟩, ⟨_, .head _, rfl⟩⟩

/-- Labels bound, and a reference to a label that no line has. -/
theorem witness_LabelsAreBoundOnce :
    Assembler.bindLabels 0 [] loopSource = .ok [("a", 0)] ∧ "a" ∈ (⟨["a"], .halt⟩ : Assembler.Line).labels ∧
    ∀ m ∈ loopSource, "b" ∉ m.labels := by decide

theorem witness_UnsupportedDirectivesAreReported :
    (∃ out, Assembler.assemble none (loopSource.filter fun l => l.op ≠ .unsupported) = .ok out) ∧
      ∀ l ∈ loopSource, l.op = .unsupported → l.labels = [] :=
  ⟨⟨⟨[0xE000, 0xA01E], []⟩, by decide⟩, by decide⟩

end Sys2Proof.Tests
end

section
/-! PROOF. The invariant of the CORE: every step and every host command keeps it (10_state R20 to R22, R115, R124), and
what it says of the fault registers in every reachable state. -/

namespace Sys2Proof.Machine

/-! ### The invariant where no fault is recorded -/

theorem State.faultRecorded_of_noFault {s : State} (hc : s.faultCause = .noFault) (hi : s.faultInfo = 0) :
    s.faultRecorded := by
  simpa [State.faultRecorded, hc] using hi

/-- A state outside `Faulted` with both fault registers zero meets the fault clauses of the invariant. -/
theorem State.Inv.of_noFault {s : State} (hm : s.arch.mem.wf = true) (hh : ∀ e ∈ s.hist, e.mem.wf = true)
    (hi : Program.wellFormed s.image = true) (hc : s.faultCause = .noFault) (hv : s.faultInfo = 0)
    (hs : s.status ≠ .faulted) (hl : s.status = .loaded → s.hist = []) (hn : s.status = .halted → s.hist ≠ []) :
    s.Inv where
  mem_wf := hm
  hist_wf := hh
  image_fits := hi
  cause_iff := by simp [hc, hs]
  recorded := State.faultRecorded_of_noFault hc hv
  loaded_empty := hl
  halted_nonempty := hn

/-- Outside `Faulted` both fault registers are zero (R20). -/
theorem State.Inv.fault_registers_zero {s : State} (hs : s.Inv) (hst : s.status ≠ .faulted) :
    s.faultCause = .noFault ∧ s.faultInfo = 0 := by
  have hc : s.faultCause = .noFault := by
    by_contra h
    exact hst (hs.cause_iff.mp h)
  have hr := hs.recorded
  simp only [State.faultRecorded, hc] at hr
  exact ⟨hc, hr⟩

/-! ### What a step can do to it -/

/-- A fault keeps the invariant, where its cause and value are those of R115. -/
theorem State.Inv.raise {s : State} {c : FaultCause} {info : Word} (hs : s.Inv) (hc : c ≠ .noFault)
    (hr : (s.raise c info).faultRecorded) : (s.raise c info).Inv where
  mem_wf := hs.mem_wf
  hist_wf := hs.hist_wf
  image_fits := hs.image_fits
  cause_iff := by simp [hc]
  recorded := hr
  loaded_empty := by simp
  halted_nonempty := by simp

/-- A fetch fault (causes 1 and 2) keeps the invariant. -/
theorem State.Inv.raise_of_fetch_trap {s : State} {c : FaultCause} {info : Word} (hs : s.Inv)
    (hf : s.arch.fetch = .trap c info) : (s.raise c info).Inv := by
  rcases Arch.fetch_trap.mp hf with ⟨rfl, rfl, hpc⟩ | ⟨rfl, rfl, hpc, hd⟩
  · exact hs.raise (by decide) ⟨rfl, hpc⟩
  · exact hs.raise (by decide) ⟨rfl, hpc, hd⟩

/-- A data-address fault (causes 3 and 4) keeps the invariant. -/
theorem State.Inv.raise_of_faultOf {s : State} {i : Instr} {c : FaultCause} {info : Word} (hs : s.Inv)
    (hf : s.arch.fetch = .instr i) (hc : faultOf i s.arch = some (c, info)) : (s.raise c info).Inv := by
  have hd := (Arch.fetch_instr.mp hf).2
  rcases faultOf_eq_some hc with ⟨rx, ry, imm, rfl, rfl, hea, hr⟩ | ⟨rx, ry, imm, rfl, rfl, hea, hr⟩
  · exact hs.raise (by decide) ⟨hr, rx, ry, imm, hd, hea⟩
  · exact hs.raise (by decide) ⟨hr, rx, ry, imm, hd, hea⟩

/-- An instruction that executes keeps the invariant: it leaves an entry, and the fault registers as they were. -/
theorem State.Inv.executed {s : State} {i : Instr} (hs : s.Inv) (hst : s.stopped = false)
    (hf : faultOf i s.arch = none) :
    State.Inv { s with arch := archAfter i s.arch, status := statusAfter i, hist := s.arch :: s.hist } := by
  obtain ⟨hc, hv⟩ := hs.fault_registers_zero (s.not_stopped_iff.mp hst).2
  have hstat := statusAfter_cases i
  refine .of_noFault (archAfter_mem_wf hs.mem_wf hf) ?_ hs.image_fits hc hv ?_ ?_ ?_
  · exact List.forall_mem_cons.mpr ⟨hs.mem_wf, hs.hist_wf⟩
  · rcases hstat with h | h <;> simp [h]
  · rcases hstat with h | h <;> simp [h]
  · simp

/-- Settles O33, by the four things a step can do. -/
theorem stepKeepsInvariant : Obligations.StepKeepsInvariant := by
  intro s t hs h
  rcases step_cases h with ⟨-, rfl⟩ | ⟨-, c, info, hf, rfl⟩ | ⟨-, i, hf, c, info, hc, rfl⟩ | ⟨hst, i, -, hn, rfl⟩
  · exact hs
  · exact hs.raise_of_fetch_trap hf
  · exact hs.raise_of_faultOf hf hc
  · exact hs.executed hst hn

/-! ### The other commands -/

/-- A stop at the breakpoint keeps the invariant: it happens in a status that accepts a step. -/
theorem State.Inv.stoppedAtBreakpoint {s : State} (hst : s.stopped = false) (hs : s.Inv) :
    State.Inv { s with status := .stoppedAtBreakpoint } := by
  obtain ⟨hc, hv⟩ := hs.fault_registers_zero (s.not_stopped_iff.mp hst).2
  exact .of_noFault hs.mem_wf hs.hist_wf hs.image_fits hc hv (by simp) (by simp) (by simp)

/-- An accepted `LOAD` brings about the invariant from any state. -/
theorem State.inv_load (s : State) {words : List Word} (hw : Program.wellFormed words = true) :
    (s.load words).2.Inv := by
  rw [State.load_accepted s hw]
  exact .of_noFault (Memory.wf_ofWords hw) (by simp) hw rfl rfl (by simp) (by simp) (by simp)

theorem State.Inv.resetCommand {s : State} (hs : s.Inv) : s.resetCommand.Inv :=
  .of_noFault (Memory.wf_ofWords hs.image_fits) (by simp) hs.image_fits rfl rfl (by simp) (by simp) (by simp)

/-- A `REWIND` that pops an entry keeps the invariant: the entry is canonical, and the status is one of R106. -/
theorem State.Inv.rewind {s : State} {e : Arch} {h : List Arch} (hs : s.Inv) (hh : s.hist = e :: h) :
    s.rewind.2.Inv := by
  obtain ⟨he, hrest⟩ := List.forall_mem_cons.mp (hh ▸ hs.hist_wf)
  rw [State.rewind_cons hh]
  refine .of_noFault he hrest hs.image_fits rfl rfl ?_ ?_ ?_
  all_goals dsimp only; split <;> simp

theorem State.Inv.setBreakpoint {s : State} (hs : s.Inv) (a : Word) : (s.setBreakpoint a).Inv where
  mem_wf := hs.mem_wf
  hist_wf := hs.hist_wf
  image_fits := hs.image_fits
  cause_iff := hs.cause_iff
  recorded := hs.recorded
  loaded_empty := hs.loaded_empty
  halted_nonempty := hs.halted_nonempty

/-- Settles O34, by the induction over commands: each that changes the state keeps the invariant. -/
theorem commandsKeepInvariant : Obligations.CommandsKeepInvariant := fun _ _ _ _ hs h =>
  Completes.keeps stepKeepsInvariant (fun _ hst hs => hs.stoppedAtBreakpoint hst) (fun s _ _ hw => s.inv_load hw)
    (fun _ hs => hs.resetCommand) (fun _ _ _ hs hh => hs.rewind hh) (fun _ a hs => hs.setBreakpoint a) hs h

/-! ### Reachable states -/

theorem State.inv_reset : State.reset.Inv :=
  .of_noFault State.reset_mem_wf (by simp [State.reset]) (by decide) rfl rfl (by decide) (fun _ => rfl) (by decide)

/-- The host can bring about no state outside the invariant. -/
theorem Reachable.inv {s : State} (h : Reachable s) : s.Inv := by
  induction h with
  | powerOn => exact State.inv_reset
  | command _ hc ih => exact commandsKeepInvariant _ _ _ _ ih hc

theorem FaultCause.code_le (c : FaultCause) : c.code ≤ 4 := by cases c <;> decide

theorem FaultCause.one_le_code {c : FaultCause} (h : c ≠ .noFault) : 1 ≤ c.code := by
  cases c with
  | noFault => exact absurd rfl h
  | fetchAddress | reservedEncoding | loadAddress | storeAddress => decide

/-- Settles O35, from the invariant of every reachable state. -/
theorem faultRegistersZeroUnlessFaulted : Obligations.FaultRegistersZeroUnlessFaulted := by
  intro s hr
  have hs := hr.inv
  refine ⟨s.faultCause.code_le, fun hf => ⟨FaultCause.one_le_code (hs.cause_iff.mpr hf), hs.recorded⟩, fun hn => ?_⟩
  obtain ⟨hc, hv⟩ := hs.fault_registers_zero hn
  exact ⟨by rw [hc]; rfl, hv⟩

end Sys2Proof.Machine
end

section
/-! PROOF. What an accepted `STEP` does, as a function of the architectural state alone, and that it keeps the history
the trace of the executed steps (10_state R21, 44_step_run R85, R86). -/

namespace Sys2Proof.Machine

/-! ### One accepted STEP -/

/-- What an accepted `STEP` does in a machine whose registers, memory and pc are `a`. -/
inductive Arch.Effect (a : Arch) : Prop where
  /-- It raises one fault, with one value. -/
  | faults (c : FaultCause) (info : Word)
    (eq : ∀ s : State, s.arch = a → s.stopped = false → s.stepCommand = .next (.fault, s.raise c info))
  /-- It executes the instruction fetched, which raises no fault. -/
  | executes (i : Instr) (fetched : a.fetch = .instr i) (noFault : faultOf i a = none)
    (eq : ∀ s : State, s.arch = a → s.stopped = false → s.stepCommand = .next ((statusAfter i).stepResult,
      { s with arch := archAfter i a, status := statusAfter i, hist := a :: s.hist }))

theorem State.stepCommand_stopped {s : State} (hs : s.stopped = true) : s.stepCommand = .next (.ignored, s) := by
  simp [State.stepCommand_of_step (step_stopped hs), hs]

theorem State.stepCommand_of_raise {s : State} {c : FaultCause} {info : Word} (hs : s.stopped = false)
    (h : step s = .next (s.raise c info)) : s.stepCommand = .next (.fault, s.raise c info) := by
  simp [State.stepCommand_of_step h, hs, Status.stepResult]

/-- The effect of an accepted `STEP` depends on the registers, memory and pc alone (R17). -/
theorem Arch.effect (a : Arch) : a.Effect := by
  cases hf : a.fetch with
  | trap c info =>
    refine .faults c info ?_
    rintro s rfl hs
    exact State.stepCommand_of_raise hs (step_trap hs hf)
  | instr i =>
    cases hq : faultOf i a with
    | some p =>
      refine .faults p.1 p.2 ?_
      rintro s rfl hs
      exact State.stepCommand_of_raise hs (by rw [step_instr hs hf, exec_eq, hq])
    | none =>
      refine .executes i hf hq ?_
      rintro s rfl hs
      have h : step s =
          .next { s with arch := archAfter i s.arch, status := statusAfter i, hist := s.arch :: s.hist } := by
        rw [step_instr hs hf, exec_eq, hq]
      simp [State.stepCommand_of_step h, hs]

/-- A `STEP` that executes runs the instruction it fetched and pushes the state before it. -/
theorem State.stepCommand_executed {s t : State} {r : StepResult} (h : s.stepCommand = .next (r, t))
    (hr : r = .executed ∨ r = .executedHalt) :
    ∃ i, s.arch.fetch = .instr i ∧ faultOf i s.arch = none ∧
      t = { s with arch := archAfter i s.arch, status := statusAfter i, hist := s.arch :: s.hist } := by
  cases hs : s.stopped with
  | true =>
    rw [State.stepCommand_stopped hs] at h
    cases h
    simp at hr
  | false =>
    cases s.arch.effect with
    | faults c info heq =>
      rw [heq s rfl hs] at h
      cases h
      simp at hr
    | executes i hf hq heq =>
      rw [heq s rfl hs] at h
      cases h
      exact ⟨i, hf, hq, rfl⟩

/-! ### The trace -/

/-- A step that executes is one link of the trace. -/
theorem Arch.stepsTo_archAfter {s : State} {i : Instr} (hs : s.stopped = false) (hf : s.arch.fetch = .instr i)
    (hq : faultOf i s.arch = none) : s.arch.StepsTo (archAfter i s.arch) := by
  have h := step_instr hs hf
  rw [exec_eq, hq] at h
  refine ⟨s, _, _, rfl, State.stepCommand_of_step h, ?_, rfl⟩
  rcases statusAfter_cases i with hi | hi <;> simp [hs, hi, Status.stepResult]

/-- Every step keeps the history the trace: it changes neither the history nor the architectural state, or it adds the
state before it. -/
theorem State.Traced.step {s t : State} (hs : s.Traced) (h : step s = .next t) : t.Traced := by
  rcases step_cases h with ⟨-, rfl⟩ | ⟨-, c, info, -, rfl⟩ | ⟨-, i, -, c, info, -, rfl⟩ | ⟨hst, i, hf, hq, rfl⟩
  · exact hs
  · exact hs
  · exact hs
  · exact ⟨Arch.stepsTo_archAfter hst hf hq, hs⟩

/-- An empty history is the trace of no step. -/
theorem State.traced_of_hist_nil {s : State} (h : s.hist = []) : s.Traced := by
  simp [State.Traced, h, TraceTo]

/-- `REWIND` drops the newest link of the trace. -/
theorem State.Traced.rewind {s : State} {e : Arch} {h : List Arch} (hs : s.Traced) (hh : s.hist = e :: h) :
    s.rewind.2.Traced := by
  rw [State.rewind_cons hh]
  rw [State.Traced, hh] at hs
  exact hs.2

/-- Settles O36, by the induction over commands. -/
theorem historyIsTheExecutionTrace : Obligations.HistoryIsTheExecutionTrace := by
  refine ⟨fun _ _ hs h => hs.step h, fun _ _ _ _ hs h => ?_⟩
  refine Completes.keeps (P := State.Traced) (fun _ _ hs h => hs.step h) (fun _ _ hs => hs) ?_
    (fun _ _ => State.traced_of_hist_nil rfl) (fun _ _ _ hs hh => hs.rewind hh) (fun _ _ hs => hs) hs h
  intro s words _ hw
  rw [State.load_accepted s hw]
  exact State.traced_of_hist_nil rfl

/-- Settles O32: at power-on no fault is recorded, the history is empty and the status is `Loaded`. -/
theorem powerOnMeetsInvariant : Obligations.PowerOnMeetsInvariant :=
  ⟨State.inv_reset, State.traced_of_hist_nil rfl, fun h => nomatch h⟩

end Sys2Proof.Machine
end

section
/-! PROOF. The registers: what a sequence of writes leaves (10_state R11), which registers an instruction reads and
writes (R13), and which instructions advance the pc (R14). -/

namespace Sys2Proof.Machine

/-- Settles O1, by induction on the writes from the last one back: a read either takes the last write or looks past it. -/
theorem registerReadsLastWrite : Obligations.RegisterReadsLastWrite := by
  intro rf ws r
  by_cases hr : r = .r0
  · subst hr
    simp
  · rw [if_neg hr]
    induction ws using List.reverseRecOn with
    | nil => rfl
    | append_singleton ws p ih =>
      rw [List.foldl_concat, RegFile.get_set, List.reverse_concat]
      by_cases hp : p.1 = r
      · simp [hp, hr]
      · rw [if_neg (fun h => hp h.1.symm), ih, List.find?_cons_of_neg (by simpa using hp)]

/-! ### Reads and writes of an instruction -/

/-- Two architectural states that no instruction `i` can tell apart: they agree on pc, memory and the registers it
reads. -/
structure AgreeFor (i : Instr) (a b : Arch) : Prop where
  pc : a.pc = b.pc
  mem : a.mem = b.mem
  regs : ∀ r ∈ registersRead i, a.reg r = b.reg r

theorem AgreeFor.readMem {i : Instr} {a b : Arch} (h : AgreeFor i a b) (ea : Word) : a.readMem ea = b.readMem ea := by
  simp [Arch.readMem, h.mem]

theorem effectiveAddress_congr {a b : Arch} {ry : Reg} (h : a.reg ry = b.reg ry) (imm : Imm5) :
    effectiveAddress a ry imm = effectiveAddress b ry imm := by
  simp [effectiveAddress, h]

/-- An instruction faults on what it reads alone. -/
theorem AgreeFor.faultOf_eq {i : Instr} {a b : Arch} (h : AgreeFor i a b) : faultOf i a = faultOf i b := by
  obtain ⟨-, -, hr⟩ := h
  cases i with
  | lw rx ry imm =>
    have hea := effectiveAddress_congr (hr ry (by simp [registersRead])) imm
    simp only [faultOf, hea]
  | sw rx ry imm =>
    have hea := effectiveAddress_congr (hr ry (by simp [registersRead])) imm
    simp only [faultOf, hea]
  | add | nand | addi | beq | jalr | halt | noop => rfl

/-- The link of `jalr` is not read from a register, so its target depends on the register read alone. -/
theorem AgreeFor.jalr_target {rx ry : Reg} {a b : Arch} (h : AgreeFor (.jalr rx ry) a b) :
    (a.setReg ry (linkAddress a)).reg rx = (b.setReg ry (linkAddress b)).reg rx := by
  have hx := h.regs rx (by simp [registersRead])
  simp only [Arch.reg_setReg, linkAddress, h.pc, hx]

/-- The pc after an instruction depends on what it reads alone. -/
theorem AgreeFor.archAfter_pc {i : Instr} {a b : Arch} (h : AgreeFor i a b) :
    (archAfter i a).pc = (archAfter i b).pc := by
  have hpc := h.pc
  cases i with
  | beq rx ry imm =>
    have hx := h.regs rx (by simp [registersRead])
    have hy := h.regs ry (by simp [registersRead])
    simp only [archAfter, hx, hy]
    split <;> simp [branchTarget, hpc]
  | jalr rx ry => exact h.jalr_target
  | add | nand | addi | lw | sw | halt | noop => simp [archAfter, hpc]

/-- Memory after an instruction depends on what it reads alone. -/
theorem AgreeFor.archAfter_mem {i : Instr} {a b : Arch} (h : AgreeFor i a b) :
    (archAfter i a).mem = (archAfter i b).mem := by
  have hm := h.mem
  cases i with
  | sw rx ry imm =>
    have hx := h.regs rx (by simp [registersRead])
    have hea := effectiveAddress_congr (h.regs ry (by simp [registersRead])) imm
    simp [archAfter, hm, hx, hea]
  | beq rx ry imm =>
    simp only [archAfter]
    split <;> split <;> exact hm
  | add | nand | addi | lw | jalr | halt | noop => exact hm

/-- The register an instruction that executes writes, and the value it writes there. -/
def writeOf (i : Instr) (a : Arch) : Option (Reg × Word) :=
  match i with
  | .add rx ry rz => some (rx, aluAdd (a.reg ry) (a.reg rz))
  | .nand rx ry rz => some (rx, aluNand (a.reg ry) (a.reg rz))
  | .addi rx ry imm => some (rx, aluAdd (a.reg ry) (sextImm imm))
  | .lw rx ry imm => some (rx, a.readMem (effectiveAddress a ry imm))
  | .jalr _ ry => some (ry, linkAddress a)
  | .sw _ _ _ | .beq _ _ _ | .halt | .noop => none

/-- The registers after an instruction are those before it, with its one write. -/
theorem archAfter_rf (i : Instr) (a : Arch) :
    (archAfter i a).rf = (writeOf i a).elim a.rf fun p => a.rf.set p.1 p.2 := by
  cases i with
  | beq rx ry imm =>
    simp only [archAfter]
    split <;> rfl
  | add | nand | addi | lw | sw | jalr | halt | noop => rfl

/-- The registers R13 lists as written are the one that `writeOf` names. -/
theorem registersWritten_eq (i : Instr) (a : Arch) : registersWritten i = ((writeOf i a).map Prod.fst).toList := by
  cases i <;> rfl

/-- The value an instruction writes depends on what it reads alone. -/
theorem AgreeFor.writeOf_eq {i : Instr} {a b : Arch} (h : AgreeFor i a b) : writeOf i a = writeOf i b := by
  have hr := h.regs
  cases i with
  | add rx ry rz | nand rx ry rz =>
    have hy := hr ry (by simp [registersRead])
    have hz := hr rz (by simp [registersRead])
    simp only [writeOf, hy, hz]
  | addi rx ry imm =>
    have hy := hr ry (by simp [registersRead])
    simp only [writeOf, hy]
  | lw rx ry imm =>
    have hea := effectiveAddress_congr (hr ry (by simp [registersRead])) imm
    simp only [writeOf, hea, h.readMem]
  | jalr rx ry => simp only [writeOf, linkAddress, h.pc]
  | sw | beq | halt | noop => rfl

/-- The written register holds the same value after an instruction, register 0 included. -/
theorem AgreeFor.archAfter_written {i : Instr} {a b : Arch} (h : AgreeFor i a b) {r : Reg}
    (hr : r ∈ registersWritten i) : (archAfter i a).reg r = (archAfter i b).reg r := by
  rw [registersWritten_eq i a, Option.mem_toList, Option.map_eq_some_iff] at hr
  obtain ⟨p, hp, rfl⟩ := hr
  have hp' : writeOf i b = some p := h.writeOf_eq ▸ hp
  simp only [Arch.reg, archAfter_rf, hp, hp', Option.elim_some, RegFile.get_set]
  by_cases h0 : p.1 = .r0 <;> simp [h0]

/-- An instruction keeps every register it does not write. -/
theorem archAfter_not_written {i : Instr} {r : Reg} (a : Arch) (hr : r ∉ registersWritten i) :
    (archAfter i a).reg r = a.reg r := by
  rw [registersWritten_eq i a] at hr
  rw [Arch.reg, archAfter_rf]
  cases hw : writeOf i a with
  | none => rfl
  | some p =>
    have hne : r ≠ p.1 := by simpa [hw] using hr
    exact RegFile.get_set_ne a.rf p.2 hne

/-- Settles O20: both states fault, on the same cause and value and changing no register, or both execute. -/
theorem registersReadAndWritten : Obligations.RegistersReadAndWritten := by
  intro i s s' t t' h h' hpc hmem hregs
  have ha : AgreeFor i s.arch s'.arch := ⟨hpc, hmem, hregs⟩
  rw [exec_eq] at h h'
  rw [← ha.faultOf_eq] at h'
  cases hf : faultOf i s.arch with
  | some p =>
    rw [hf] at h h'
    cases h
    cases h'
    exact ⟨hpc, hmem, rfl, fun _ _ hn => absurd rfl hn, fun _ _ => rfl⟩
  | none =>
    rw [hf] at h h'
    cases h
    cases h'
    exact ⟨ha.archAfter_pc, ha.archAfter_mem, rfl, fun _ hr _ => ha.archAfter_written hr,
      fun _ hr => archAfter_not_written s.arch hr⟩

/-! ### The pc -/

theorem archAfter_pc_of_no_jump {i : Instr} (a : Arch) (hbeq : ∀ rx ry imm, i ≠ .beq rx ry imm)
    (hjalr : ∀ rx ry, i ≠ .jalr rx ry) : (archAfter i a).pc = a.pc + 1 := by
  cases i with
  | beq rx ry imm => exact absurd rfl (hbeq rx ry imm)
  | jalr rx ry => exact absurd rfl (hjalr rx ry)
  | add | nand | addi | lw | sw | halt | noop => rfl

/-- Settles O28: a `STEP` that executes leaves the effect of the instruction it fetched. -/
theorem otherInstructionsAdvancePc : Obligations.OtherInstructionsAdvancePc := by
  intro s t r i h hr hf hbeq hjalr
  obtain ⟨j, hj, -, rfl⟩ := State.stepCommand_executed h hr
  obtain rfl : i = j := by simpa [hf] using hj
  simp [archAfter_pc_of_no_jump s.arch hbeq hjalr, BitVec.toNat_add]

end Sys2Proof.Machine
end

section
/-! PROOF. What no step depends on: the debug state (10_state R17, R21), and which of the accepting statuses is set (R18,
44_step_run R88). -/

namespace Sys2Proof.Machine

/-- Settles O29: what an accepted `STEP` does is a function of the registers, memory and pc. -/
theorem programCannotSeeDebugState : Obligations.ProgramCannotSeeDebugState := by
  intro s s' t t' r r' ha hs hs' h h'
  cases s.arch.effect with
  | faults c info heq =>
    rw [heq s rfl hs] at h
    rw [heq s' ha.symm hs'] at h'
    cases h
    cases h'
    exact ⟨rfl, ha, rfl, fun _ => ⟨rfl, rfl⟩⟩
  | executes i hf hq heq =>
    rw [heq s rfl hs] at h
    rw [heq s' ha.symm hs'] at h'
    cases h
    cases h'
    refine ⟨rfl, rfl, rfl, fun hr => ?_⟩
    rcases statusAfter_cases i with hi | hi <;> simp [hi, Status.stepResult] at hr

/-! ### The accepting statuses -/

theorem State.stopped_of_accepts (s : State) {st : Status} (h : st.accepts) :
    State.stopped { s with status := st } = false := by
  rcases h with rfl | rfl | rfl <;> rfl

section
variable {st st' : Status} (s : State) (h : st.accepts) (h' : st'.accepts)
include h h'

/-- An accepted `STEP` overwrites the status. -/
theorem State.stepCommand_accepts :
    State.stepCommand { s with status := st } = State.stepCommand { s with status := st' } := by
  have hs := s.stopped_of_accepts h
  have hs' := s.stopped_of_accepts h'
  cases s.arch.effect with
  | faults c info heq => rw [heq { s with status := st } rfl hs, heq { s with status := st' } rfl hs']; rfl
  | executes i hf hq heq => rw [heq { s with status := st } rfl hs, heq { s with status := st' } rfl hs']

/-- So does a turn of `RUN`: the comparator does not look at the status. -/
theorem State.runTurn_accepts :
    State.runTurn { s with status := st } = State.runTurn { s with status := st' } := by
  unfold State.runTurn
  rw [s.stepCommand_accepts h h']
  rfl

end

/-- The loop of `RUN` sees its first state only through the first turn. -/
theorem RunLoop.of_runTurn_eq {s s' t : State} {r : RunResult} (he : s.runTurn = s'.runTurn) (h : RunLoop s r t) :
    RunLoop s' r t := by
  cases h with
  | done hd => exact .done (he ▸ hd)
  | again ha hl => exact .again (he ▸ ha) hl

/-- `RUN` in a status that accepts a step is the loop. -/
theorem runReturns_accepts (s t : State) {st : Status} {r : RunResult} (h : st.accepts) :
    RunReturns { s with status := st } r t ↔ RunLoop { s with status := st } r t := by
  simp [RunReturns, s.stopped_of_accepts h]

/-- Settles O30: `STEP` and a turn of `RUN` overwrite the status, and so does a `REWIND` that pops an entry. -/
theorem acceptingStatusesBehaveAlike : Obligations.AcceptingStatusesBehaveAlike := by
  intro s st st' h h'
  refine ⟨s.stepCommand_accepts h h', fun r t => ?_, fun hh => ?_⟩
  · rw [runReturns_accepts s t h, runReturns_accepts s t h']
    have he := s.runTurn_accepts h h'
    exact ⟨.of_runTurn_eq he, .of_runTurn_eq he.symm⟩
  · obtain ⟨e, l, hl⟩ := List.exists_cons_of_ne_nil hh
    rw [State.rewind_cons (s := { s with status := st }) hl, State.rewind_cons (s := { s with status := st' }) hl]

end Sys2Proof.Machine
end

section
/-! PROOF. What each host command does to the breakpoint, the image and the depth of the history (10_state R10, R19, R21,
R22). -/

namespace Sys2Proof.Machine

/-! ### What a command that completes has done -/

theorem completes_load {s t : State} {words : List Word} {resp : Response} :
    Completes (.load words) s resp t ↔ resp = .accepted (s.load words).1 ∧ t = (s.load words).2 := by
  simp [Completes, Command.perform, eq_comm]

theorem completes_step {s t : State} {resp : Response} :
    Completes .step s resp t ↔ ∃ r, resp = .step r ∧ s.stepCommand = .next (r, t) := by
  cases hc : s.stepCommand with
  | next p => simp [Completes, Command.perform, hc, Prod.ext_iff, eq_comm]
  | fault f => simp [Completes, Command.perform, hc]
  | refused f => simp [Completes, Command.perform, hc]

theorem completes_run {s t : State} {resp : Response} :
    Completes .run s resp t ↔ ∃ n r, resp = .run r ∧ s.run n = some (r, t) := by
  simp only [Completes, Command.perform, Option.map_eq_some_iff, Prod.mk.injEq, Prod.exists]
  constructor
  · rintro ⟨n, r, u, h, rfl, rfl⟩
    exact ⟨n, r, rfl, h⟩
  · rintro ⟨n, r, rfl, h⟩
    exact ⟨n, r, t, h, rfl, rfl⟩

theorem completes_reset {s t : State} {resp : Response} :
    Completes .reset s resp t ↔ resp = .noResult ∧ t = s.resetCommand := by
  simp [Completes, Command.perform, eq_comm]

theorem completes_rewind {s t : State} {resp : Response} :
    Completes .rewind s resp t ↔ resp = .ok s.rewind.1 ∧ t = s.rewind.2 := by
  simp [Completes, Command.perform, eq_comm]

theorem completes_setbp {s t : State} {a : Word} {resp : Response} :
    Completes (.setbp a) s resp t ↔ resp = .noResult ∧ t = s.setBreakpoint a := by
  simp [Completes, Command.perform, eq_comm]

theorem completes_disasm {s t : State} {a : Word} {resp : Response} :
    Completes (.disasm a) s resp t ↔ resp = .disasm (s.disasm a) ∧ t = s := by
  simp [Completes, Command.perform, eq_comm]

/-! ### The breakpoint and the image -/

/-- `t` has the breakpoint and the image of `s`. -/
def SameDebug (s t : State) : Prop := t.bpValid = s.bpValid ∧ t.bpAddr = s.bpAddr ∧ t.image = s.image

theorem SameDebug.refl (s : State) : SameDebug s s := ⟨rfl, rfl, rfl⟩

theorem SameDebug.step {s u t : State} (hu : SameDebug s u) (h : step u = .next t) : SameDebug s t := by
  rcases step_cases h with ⟨-, rfl⟩ | ⟨-, c, info, -, rfl⟩ | ⟨-, i, -, c, info, -, rfl⟩ | ⟨-, i, -, -, rfl⟩
  all_goals exact hu

theorem State.sameDebug_run {s t : State} {n : Nat} {r : RunResult} (h : s.run n = some (r, t)) : SameDebug s t := by
  unfold State.run at h
  split at h
  · cases h
    exact .refl s
  · rename_i hs
    exact State.runLoop_keeps (P := SameDebug s) (fun _ _ hu hst => hu.step hst) (fun _ _ hu => hu) n (by simpa using hs)
      (.refl s) h

theorem State.sameDebug_rewind (s : State) : SameDebug s s.rewind.2 := by
  cases hh : s.hist with
  | nil => rw [State.rewind_nil hh]; exact .refl s
  | cons e h => rw [State.rewind_cons hh]; exact .refl s

/-- A command leaves the breakpoint and the image alone, or is `SETBP`, or an accepted `LOAD`. -/
theorem Completes.debug_cases {c : Command} {s t : State} {resp : Response} (h : Completes c s resp t) :
    SameDebug s t ∨ (∃ a, c = .setbp a ∧ t = s.setBreakpoint a) ∨
    (∃ words, c = .load words ∧ resp = .accepted true ∧ t.bpValid = false ∧ t.bpAddr = s.bpAddr ∧ t.image = words) := by
  cases c with
  | load words =>
    obtain ⟨rfl, rfl⟩ := completes_load.mp h
    cases hw : Program.wellFormed words with
    | true => rw [State.load_accepted s hw]; exact .inr (.inr ⟨words, rfl, rfl, rfl, rfl, rfl⟩)
    | false => rw [State.load_refused s hw]; exact .inl (.refl s)
  | step =>
    obtain ⟨r, -, hr⟩ := completes_step.mp h
    exact .inl ((SameDebug.refl s).step (State.step_of_stepCommand hr).1)
  | run =>
    obtain ⟨n, r, -, hr⟩ := completes_run.mp h
    exact .inl (State.sameDebug_run hr)
  | reset =>
    obtain ⟨-, rfl⟩ := completes_reset.mp h
    exact .inl (.refl s)
  | rewind =>
    obtain ⟨-, rfl⟩ := completes_rewind.mp h
    exact .inl s.sameDebug_rewind
  | setbp a => exact .inr (.inl ⟨a, rfl, (completes_setbp.mp h).2⟩)
  | disasm a =>
    obtain ⟨-, rfl⟩ := completes_disasm.mp h
    exact .inl (.refl t)

/-- Settles O53, from the two commands that write the breakpoint or the image. -/
theorem breakpointAndImageWriters : Obligations.BreakpointAndImageWriters := by
  intro c s resp t h
  rcases h.debug_cases with ⟨hv, ha, hi⟩ | ⟨a, rfl, rfl⟩ | ⟨words, rfl, rfl, hv, ha, hi⟩
  · simp +contextual [hv, ha, hi]
  · simp
  · simp [hv, ha, hi]

/-! ### The depth of the history -/

theorem statusAfter_stepResult (i : Instr) :
    (statusAfter i).stepResult = .executed ∨ (statusAfter i).stepResult = .executedHalt := by
  rcases statusAfter_cases i with h | h <;> simp [h, Status.stepResult]

/-- `STEP` pushes one entry exactly when it executes. -/
theorem State.stepCommand_depth {s t : State} {r : StepResult} (h : s.stepCommand = .next (r, t)) :
    t.hist.length = s.hist.length + (if r = .executed ∨ r = .executedHalt then 1 else 0) := by
  cases hs : s.stopped with
  | true =>
    rw [State.stepCommand_stopped hs] at h
    cases h
    simp
  | false =>
    cases s.arch.effect with
    | faults c info heq =>
      rw [heq s rfl hs] at h
      cases h
      simp
    | executes i _ _ heq =>
      rw [heq s rfl hs] at h
      cases h
      rw [if_pos (statusAfter_stepResult i)]
      rfl

theorem RunSteps.depth {n : Nat} {s t : State} (h : RunSteps n s t) : t.hist.length = s.hist.length + n := by
  induction n generalizing s with
  | zero => rw [show t = s from h]; rfl
  | succ n ih =>
    obtain ⟨-, u, hu, hrest⟩ := h
    have hd := State.stepCommand_depth hu
    rw [ih hrest, hd]
    simp
    omega

/-- The loop of `RUN` under fuel is some executed steps, each behind the comparator, then the turn that ends it. -/
theorem State.runLoop_eq_some (n : Nat) {s t : State} {r : RunResult} (hs : s.stopped = false)
    (h : State.runLoop n s = some (r, t)) :
    ∃ k u, RunSteps k s u ∧ u.stopped = false ∧ u.runTurn = .next (.done r t) := by
  induction n generalizing s with
  | zero => cases h
  | succ n ih =>
    rw [State.runLoop_succ] at h
    split at h
    · rename_i hd
      cases h
      exact ⟨0, s, rfl, hs, hd⟩
    · rename_i v ha
      obtain ⟨hb, he⟩ := State.runTurn_again ha
      obtain ⟨k, u, hk, hu, hd⟩ := ih (State.not_stopped_of_executed he) h
      exact ⟨k + 1, u, ⟨hb, v, he, hk⟩, hu, hd⟩
    · cases h
    · cases h

theorem Status.stepResult_ne_ignored (st : Status) : st.stepResult ≠ .ignored := by
  cases st <;> simp [Status.stepResult]

/-- The turn of `RUN` that ends it, in a status that accepts a step: a stop at the breakpoint, a `halt` or a fault. -/
theorem State.runTurn_done_cases {s t : State} {r : RunResult} (hs : s.stopped = false)
    (h : s.runTurn = .next (.done r t)) :
    (r = .breakpointHit ∧ s.bpHit = true ∧ t = { s with status := .stoppedAtBreakpoint }) ∨
    (r = .halted ∧ s.bpHit = false ∧ s.stepCommand = .next (.executedHalt, t)) ∨
    (r = .fault ∧ s.bpHit = false ∧ s.stepCommand = .next (.fault, t)) := by
  unfold State.runTurn at h
  split at h
  · rename_i hb
    cases h
    exact .inl ⟨rfl, hb, rfl⟩
  · rename_i hb
    rw [Bool.not_eq_true] at hb
    split at h <;> cases h
    · rename_i hc
      exact .inr (.inl ⟨rfl, hb, hc⟩)
    · rename_i hc
      exact .inr (.inr ⟨rfl, hb, hc⟩)
    · rename_i hc
      have hi := (State.step_of_stepCommand hc).2
      rw [hs] at hi
      exact absurd hi.symm (Status.stepResult_ne_ignored _)

/-- `RUN` adds the steps it executed, and the `halt` that ended it. -/
theorem State.run_depth {n : Nat} {s t : State} {r : RunResult} (h : s.run n = some (r, t)) :
    (r = .ignored ∧ s.stopped = true ∧ t.hist.length = s.hist.length) ∨
    (s.stopped = false ∧ ∃ n u, RunSteps n s u ∧
      ((r = .breakpointHit ∧ u.bpHit = true ∧ t.hist.length = s.hist.length + n) ∨
       (r = .halted ∧ u.bpHit = false ∧ u.stepCommand = .next (.executedHalt, t) ∧
         t.hist.length = s.hist.length + n + 1) ∨
       (r = .fault ∧ u.bpHit = false ∧ u.stepCommand = .next (.fault, t) ∧ t.hist.length = s.hist.length + n))) := by
  unfold State.run at h
  split at h
  · rename_i hs
    cases h
    exact .inl ⟨rfl, hs, rfl⟩
  · rename_i hs
    rw [Bool.not_eq_true] at hs
    obtain ⟨k, u, hk, hu, hd⟩ := State.runLoop_eq_some n hs h
    refine .inr ⟨hs, k, u, hk, ?_⟩
    have hdepth := hk.depth
    rcases State.runTurn_done_cases hu hd with ⟨rfl, hb, rfl⟩ | ⟨rfl, hb, hc⟩ | ⟨rfl, hb, hc⟩
    · exact .inl ⟨rfl, hb, hdepth⟩
    · exact .inr (.inl ⟨rfl, hb, hc, by simp [State.stepCommand_depth hc, hdepth]⟩)
    · exact .inr (.inr ⟨rfl, hb, hc, by simp [State.stepCommand_depth hc, hdepth]⟩)

theorem State.load_depth (s : State) (words : List Word) :
    (s.load words).2.hist.length = if words.length ≤ 16384 then 0 else s.hist.length := by
  by_cases hl : words.length ≤ 16384
  · rw [State.load_accepted s (by simpa [Program.wellFormed] using hl), if_pos hl]
    rfl
  · rw [State.load_refused s (by simpa [Program.wellFormed] using hl), if_neg hl]

theorem State.rewind_ok_depth {s : State} (h : s.rewind.1 = true) : s.rewind.2.hist.length + 1 = s.hist.length := by
  cases hh : s.hist with
  | nil => simp [State.rewind_nil hh] at h
  | cons e l => simp [State.rewind_cons hh]

theorem State.rewind_failed {s : State} (h : s.rewind.1 = false) : s.rewind.2 = s ∧ s.hist = [] := by
  cases hh : s.hist with
  | nil => simp [State.rewind_nil hh]
  | cons e l => simp [State.rewind_cons hh] at h

/-- Settles O54, clause by clause, from what each command does to the history. -/
theorem historyDepthCounts : Obligations.HistoryDepthCounts := by
  intro s t resp
  refine ⟨fun r h => ?_, fun h => ?_, fun h => ?_, fun h => ?_, fun words h => ?_, fun a h => ?_, fun r h => ?_⟩
  · obtain ⟨r', hr, hc⟩ := completes_step.mp h
    cases hr
    exact State.stepCommand_depth hc
  · obtain ⟨hr, rfl⟩ := completes_rewind.mp h
    exact State.rewind_ok_depth (Response.ok.inj hr).symm
  · obtain ⟨hr, rfl⟩ := completes_rewind.mp h
    obtain ⟨hs, hh⟩ := State.rewind_failed (Response.ok.inj hr).symm
    simp [hs, hh]
  · obtain ⟨-, rfl⟩ := completes_reset.mp h
    rfl
  · obtain ⟨-, rfl⟩ := completes_load.mp h
    exact s.load_depth words
  · rcases h with h | h
    · obtain ⟨-, rfl⟩ := completes_setbp.mp h
      rfl
    · obtain ⟨-, rfl⟩ := completes_disasm.mp h
      rfl
  · obtain ⟨n, r', hr, hrun⟩ := completes_run.mp h
    cases hr
    exact State.run_depth hrun

/-- Settles O55: the capped push is the unbounded one, cut to the capacity. -/
theorem cappedHistoryKeepsNewest : Obligations.CappedHistoryKeepsNewest := by
  intro n e h
  have hp : pushHistory (some n) e h = (e :: h).take n := rfl
  refine ⟨by rw [hp, List.length_take, List.length_cons], fun k hk => ?_⟩
  rw [hp, List.getElem?_take_of_lt hk]

end Sys2Proof.Machine
end

section
/-! PROOF. Memory: what a sequence of writes leaves (20_memory R32), that only an `sw` in range writes it (R37, R76), and
that the next fetch sees the store (R42). -/

namespace Sys2Proof.Machine

/-! ### Sequences of writes -/

section
variable (a : Arch) (ws : List (Word × Word))

theorem Arch.foldl_writeMem_rf : (ws.foldl (fun b p => b.writeMem p.1 p.2) a).rf = a.rf := by
  induction ws generalizing a with
  | nil => rfl
  | cons p ws ih => exact ih (a.writeMem p.1 p.2)

theorem Arch.foldl_writeMem_pc : (ws.foldl (fun b p => b.writeMem p.1 p.2) a).pc = a.pc := by
  induction ws generalizing a with
  | nil => rfl
  | cons p ws ih => exact ih (a.writeMem p.1 p.2)

end

/-- Writes in range keep the canonical form. -/
theorem Arch.wf_foldl_writeMem {a : Arch} {ws : List (Word × Word)} (ha : a.mem.wf = true)
    (hws : ∀ p ∈ ws, p.1.toNat < Config.memCap) : (ws.foldl (fun b p => b.writeMem p.1 p.2) a).mem.wf = true := by
  induction ws generalizing a with
  | nil => exact ha
  | cons p ws ih =>
    obtain ⟨hp, hrest⟩ := List.forall_mem_cons.mp hws
    exact ih (Arch.wf_writeMem p.2 ha ((inRange_iff p.1).mpr hp)) hrest

/-- Induction on the writes from the last one back: a read either takes the last write or looks past it. -/
theorem Arch.readMem_foldl_writeMem {a : Arch} {ws : List (Word × Word)} (x : Word) (ha : a.mem.wf = true)
    (hws : ∀ p ∈ ws, p.1.toNat < Config.memCap) :
    (ws.foldl (fun b p => b.writeMem p.1 p.2) a).readMem x =
      ((ws.reverse.find? fun p => p.1 = x).map Prod.snd).getD (a.readMem x) := by
  induction ws using List.reverseRecOn with
  | nil => rfl
  | append_singleton ws p ih =>
    have hinit : ∀ q ∈ ws, q.1.toNat < Config.memCap := fun q hq => hws q (List.mem_append_left [p] hq)
    rw [List.foldl_concat, List.reverse_concat]
    by_cases hp : p.1 = x
    · subst hp
      simp [Arch.readMem_writeMem_self p.1 p.2 (Arch.wf_foldl_writeMem ha hinit)]
    · rw [Arch.readMem_writeMem_ne _ p.2 (Ne.symm hp), ih hinit, List.find?_cons_of_neg (by simpa using hp)]

/-- Settles O2: a write in range is read back, changes nothing else, and keeps the canonical form that the read-back
needs. -/
theorem memoryReadsLastWrite : Obligations.MemoryReadsLastWrite := fun a ws x ha hws =>
  ⟨Arch.readMem_foldl_writeMem x ha hws, a.foldl_writeMem_rf ws, a.foldl_writeMem_pc ws, Arch.wf_foldl_writeMem ha hws⟩

/-! ### What a step writes -/

theorem faultOf_sw_eq_none {a : Arch} {rx ry : Reg} {imm : Imm5} :
    faultOf (.sw rx ry imm) a = none ↔ (effectiveAddress a ry imm).toNat < Config.memCap := by
  rw [← inRange_iff]
  simp [faultOf]

/-- An instruction that changes a Word of memory is an `sw` whose effective address is the address of that Word. -/
theorem sw_of_archAfter_readMem_ne {i : Instr} {a : Arch} {x : Word} (h : (archAfter i a).readMem x ≠ a.readMem x) :
    ∃ rx ry imm, i = .sw rx ry imm ∧ x = effectiveAddress a ry imm := by
  cases i with
  | sw rx ry imm =>
    refine ⟨rx, ry, imm, rfl, ?_⟩
    by_contra hx
    exact h (a.readMem_writeMem_ne (a.reg rx) hx)
  | beq rx ry imm =>
    simp only [archAfter] at h
    split at h <;> exact absurd rfl h
  | add | nand | addi | lw | jalr | halt | noop => exact absurd rfl h

/-- Settles O27, by the four things a step can do: only one that executes can change memory, and an `sw` that executes
is in range. -/
theorem onlySwWritesMemory : Obligations.OnlySwWritesMemory := by
  intro s t x h hx
  rcases step_cases h with ⟨-, rfl⟩ | ⟨-, c, info, -, rfl⟩ | ⟨-, i, -, c, info, -, rfl⟩ | ⟨-, i, hf, hq, rfl⟩
  · exact absurd rfl hx
  · exact absurd rfl hx
  · exact absurd rfl hx
  · obtain ⟨rx, ry, imm, rfl, rfl⟩ := sw_of_archAfter_readMem_ne hx
    exact ⟨faultOf_sw_eq_none.mp hq, rx, ry, imm, hf, rfl⟩

/-! ### The next fetch -/

/-- An `sw` that executes to the next address leaves a state that fetches what the stored Word decodes to. -/
theorem fetch_archAfter_sw {a : Arch} {rx ry : Reg} {imm : Imm5} {i : Instr} (ha : a.mem.wf = true)
    (hea : effectiveAddress a ry imm = a.pc + 1) (hpc : (a.pc + 1).toNat < Config.memCap)
    (hd : decode (a.reg rx) = .instr i) : (archAfter (.sw rx ry imm) a).fetch = .instr i := by
  have hread : (archAfter (.sw rx ry imm) a).readMem (a.pc + 1) = a.reg rx := by
    simp [archAfter, hea, Arch.readMem_writeMem_self _ _ ha]
  exact Arch.fetch_instr.mpr ⟨hpc, (congrArg decode hread).trans hd⟩

/-- Settles O31: the `sw` is in range, so it executes, and the next fetch reads the Word it stored. -/
theorem storeIsSeenByTheNextFetch : Obligations.StoreIsSeenByTheNextFetch := by
  intro s t rx ry imm i hm hs hf hea hpc h hd
  have hq : faultOf (.sw rx ry imm) s.arch = none := faultOf_sw_eq_none.mpr (hea ▸ hpc)
  rw [step_instr hs hf, exec_eq, hq] at h
  cases h
  exact step_instr rfl (fetch_archAfter_sw hm hea hpc hd)

end Sys2Proof.Machine
end

section
/-! PROOF. The decoder and the encoder are inverse to each other (30_encoding R53, R57), the encoder's formulas as numbers,
and which Words are reserved (R54). -/

namespace Sys2Proof

/-! ### What the encoder lays out (R47 to R49) -/

theorem encode_add (rx ry rz : Reg) :
    encode (.add rx ry rz) = 0#3 ++ rx.toField ++ ry.toField ++ 0#4 ++ rz.toField :=
  encodeRegs_formatR 0 rx ry rz

theorem encode_nand (rx ry rz : Reg) :
    encode (.nand rx ry rz) = 1#3 ++ rx.toField ++ ry.toField ++ 0#4 ++ rz.toField :=
  encodeRegs_formatR 1 rx ry rz

theorem encode_addi (rx ry : Reg) (imm : Imm5) :
    encode (.addi rx ry imm) = 2#3 ++ rx.toField ++ ry.toField ++ 0#2 ++ imm :=
  encodeRegs_formatI 2 rx ry imm

theorem encode_lw (rx ry : Reg) (imm : Imm5) :
    encode (.lw rx ry imm) = 3#3 ++ rx.toField ++ ry.toField ++ 0#2 ++ imm :=
  encodeRegs_formatI 3 rx ry imm

theorem encode_sw (rx ry : Reg) (imm : Imm5) :
    encode (.sw rx ry imm) = 4#3 ++ rx.toField ++ ry.toField ++ 0#2 ++ imm :=
  encodeRegs_formatI 4 rx ry imm

theorem encode_beq (rx ry : Reg) (imm : Imm5) :
    encode (.beq rx ry imm) = 5#3 ++ rx.toField ++ ry.toField ++ 0#2 ++ imm :=
  encodeRegs_formatI 5 rx ry imm

theorem encode_jalr (rx ry : Reg) : encode (.jalr rx ry) = 6#3 ++ rx.toField ++ ry.toField ++ 0#7 :=
  encodeRegs_formatJ 6 rx ry

/-! ### What the decoder does with a layout -/

/-- A format R layout decodes to the instruction of its opcode on the registers laid out. -/
theorem decodeR_layout (op : BitVec 3) (rx ry rz : Reg) (mk : Reg → Reg → Reg → Instr) :
    decodeR (op ++ rx.toField ++ ry.toField ++ 0#4 ++ rz.toField) mk = .instr (mk rx ry rz) := by
  obtain ⟨-, hx, hy, hz, hk⟩ := fields_formatR op rx.toField ry.toField rz.toField 0#4
  simp [decodeR, hx, hy, hz, hk, Reg.ofField_toField]

theorem decodeI_layout (op : BitVec 3) (rx ry : Reg) (imm : Imm5) (mk : Reg → Reg → Imm5 → Instr) :
    decodeI (op ++ rx.toField ++ ry.toField ++ 0#2 ++ imm) mk = .instr (mk rx ry imm) := by
  obtain ⟨-, hx, hy, hi, hk⟩ := fields_formatI op rx.toField ry.toField 0#2 imm
  simp [decodeI, hx, hy, hi, hk, Reg.ofField_toField]

theorem decodeJ_layout (op : BitVec 3) (rx ry : Reg) (mk : Reg → Reg → Instr) :
    decodeJ (op ++ rx.toField ++ ry.toField ++ 0#7) mk = .instr (mk rx ry) := by
  obtain ⟨-, hx, hy, hk⟩ := fields_formatJ op rx.toField ry.toField 0#7
  simp [decodeJ, hx, hy, hk, Reg.ofField_toField]

/-- The opcode of an instruction's layout chooses its format, which reads the fields back. -/
theorem decode_encode {i : Instr} (hi : i.wellFormed = true) : decode (encode i) = .instr i := by
  cases i with
  | add rx ry rz | nand rx ry rz =>
    simp only [encode_add, encode_nand, decode, fields_formatR]
    exact decodeR_layout ..
  | addi rx ry imm | lw rx ry imm | sw rx ry imm | beq rx ry imm =>
    simp only [encode_addi, encode_lw, encode_sw, encode_beq, decode, fields_formatI]
    exact decodeI_layout ..
  | jalr rx ry =>
    simp only [encode_jalr, decode, fields_formatJ]
    exact decodeJ_layout ..
  | halt => decide
  | noop => cases hi

/-- Settles O5: each instruction is read back from its layout. -/
theorem decodeOfEncode : Obligations.DecodeOfEncode := fun _ hi => decode_encode hi

/-- Settles O4: each Word is closed, so the decoder runs on it. -/
theorem specWordsDecode : Obligations.SpecWordsDecode := by
  unfold Obligations.SpecWordsDecode
  decide

/-! ### What the decoder can answer -/

theorem opcode_cases (op : BitVec 3) :
    op = 0 ∨ op = 1 ∨ op = 2 ∨ op = 3 ∨ op = 4 ∨ op = 5 ∨ op = 6 ∨ op = 7 := by
  revert op
  decide

section
variable {w : Word} {op : BitVec 3} {i : Instr} (hop : opField w = op)
include hop

/-- A format R Word that decodes is the encoding of what it decodes to, if the encoder has the layout of its opcode. -/
theorem encode_of_decodeR {mk : Reg → Reg → Reg → Instr} (h : decodeR w mk = .instr i)
    (hwf : ∀ rx ry rz, (mk rx ry rz).wellFormed = true)
    (henc : ∀ rx ry rz, encode (mk rx ry rz) = op ++ rx.toField ++ ry.toField ++ 0#4 ++ rz.toField) :
    i.wellFormed = true ∧ encode i = w := by
  unfold decodeR at h
  split at h <;> cases h
  rename_i hk
  have hw := word_eq_fieldsR w
  rw [not_not.mp hk, hop] at hw
  exact ⟨hwf .., by simpa [henc, Reg.toField_ofField] using hw.symm⟩

theorem encode_of_decodeI {mk : Reg → Reg → Imm5 → Instr} (h : decodeI w mk = .instr i)
    (hwf : ∀ rx ry imm, (mk rx ry imm).wellFormed = true)
    (henc : ∀ rx ry imm, encode (mk rx ry imm) = op ++ rx.toField ++ ry.toField ++ 0#2 ++ imm) :
    i.wellFormed = true ∧ encode i = w := by
  unfold decodeI at h
  split at h <;> cases h
  rename_i hk
  have hw := word_eq_fieldsI w
  rw [not_not.mp hk, hop] at hw
  exact ⟨hwf .., by simpa [henc, Reg.toField_ofField] using hw.symm⟩

theorem encode_of_decodeJ {mk : Reg → Reg → Instr} (h : decodeJ w mk = .instr i)
    (hwf : ∀ rx ry, (mk rx ry).wellFormed = true)
    (henc : ∀ rx ry, encode (mk rx ry) = op ++ rx.toField ++ ry.toField ++ 0#7) :
    i.wellFormed = true ∧ encode i = w := by
  unfold decodeJ at h
  split at h <;> cases h
  rename_i hk
  have hw := word_eq_fieldsJ w
  rw [not_not.mp hk, hop] at hw
  exact ⟨hwf .., by simpa [henc, Reg.toField_ofField] using hw.symm⟩

theorem encode_of_decodeO {j : Instr} (h : decodeO w j = .instr i) (hwf : j.wellFormed = true)
    (henc : encode j = op ++ 0#13) : i.wellFormed = true ∧ encode i = w := by
  unfold decodeO at h
  split at h <;> cases h
  rename_i hk
  have hw := word_eq_fieldsO w
  rw [not_not.mp hk, hop] at hw
  exact ⟨hwf, henc.trans hw.symm⟩

end

/-- A Word that is not reserved is the encoding of the well-formed instruction it decodes to. -/
theorem encode_of_decode {w : Word} {i : Instr} (h : decode w = .instr i) : i.wellFormed = true ∧ encode i = w := by
  rcases opcode_cases (opField w) with hop | hop | hop | hop | hop | hop | hop | hop <;> rw [decode, hop] at h
  · exact encode_of_decodeR hop h (fun _ _ _ => rfl) encode_add
  · exact encode_of_decodeR hop h (fun _ _ _ => rfl) encode_nand
  · exact encode_of_decodeI hop h (fun _ _ _ => rfl) encode_addi
  · exact encode_of_decodeI hop h (fun _ _ _ => rfl) encode_lw
  · exact encode_of_decodeI hop h (fun _ _ _ => rfl) encode_sw
  · exact encode_of_decodeI hop h (fun _ _ _ => rfl) encode_beq
  · exact encode_of_decodeJ hop h (fun _ _ => rfl) encode_jalr
  · exact encode_of_decodeO hop h rfl rfl

/-! ### The formulas as numbers (R51, R57) -/

/-- The fields of a concatenation are disjoint, so that the spec's `|` is a sum. -/
theorem toNat_append_eq_add {m n : Nat} (x : BitVec m) (y : BitVec n) : (x ++ y).toNat = x.toNat * 2 ^ n + y.toNat := by
  rw [BitVec.toNat_append, ← Nat.shiftLeft_add_eq_or_of_lt y.isLt, Nat.shiftLeft_eq]

theorem toNat_formatR (op x y z : BitVec 3) :
    (op ++ x ++ y ++ 0#4 ++ z).toNat = op.toNat * 0x2000 + x.toNat * 1024 + y.toNat * 128 + z.toNat := by
  simp only [toNat_append_eq_add, BitVec.toNat_ofNat]
  omega

theorem toNat_formatI (op x y : BitVec 3) (imm : Imm5) :
    (op ++ x ++ y ++ 0#2 ++ imm).toNat = op.toNat * 0x2000 + x.toNat * 1024 + y.toNat * 128 + imm.toNat := by
  simp only [toNat_append_eq_add, BitVec.toNat_ofNat]
  omega

theorem toNat_formatJ (op x y : BitVec 3) :
    (op ++ x ++ y ++ 0#7).toNat = op.toNat * 0x2000 + x.toNat * 1024 + y.toNat * 128 := by
  simp only [toNat_append_eq_add, BitVec.toNat_ofNat]
  omega

theorem Imm5.toNat_ofInt (n : Int) : ((Imm5.ofInt n).toNat : Int) = n % 32 := by
  rw [Imm5.ofInt, BitVec.toNat_ofInt]
  omega

/-- Settles O6: the formulas are the numbers of the layouts, and the inverses are `decode_encode` and
`encode_of_decode`. -/
theorem encoderInvertsDecoder : Obligations.EncoderInvertsDecoder := by
  refine ⟨fun a b c => ?_, fun a b n _ _ => ?_, fun a b => ?_, rfl, fun w i => ⟨encode_of_decode, ?_⟩⟩
  · rw [encode_add, encode_nand, toNat_formatR, toNat_formatR]
    exact ⟨rfl, rfl⟩
  · rw [encode_addi, encode_lw, encode_sw, encode_beq, ← Imm5.toNat_ofInt]
    simp [toNat_formatI]
  · rw [encode_jalr, toNat_formatJ]
    rfl
  · rintro ⟨hi, rfl⟩
    exact decode_encode hi

end Sys2Proof
end

section
/-! PROOF. Which Words are reserved: by the reserved bits of each format (30_encoding R54), by mask and match (R53), and
what a step does with one. -/

namespace Sys2Proof

open Sys2Proof.Machine

/-- The bits of `w` that the format of the opcode `op` reserves are 0 (R47 to R50). -/
def ReservedBitsClear (op : BitVec 3) (w : Word) : Prop :=
  match op.toNat with
  | 0 | 1 => w.extractLsb' 3 4 = 0#4
  | 2 | 3 | 4 | 5 => w.extractLsb' 5 2 = 0#2
  | 6 => w.extractLsb' 0 7 = 0#7
  | _ => w.extractLsb' 0 13 = 0#13

/-- A Word is reserved exactly when a bit that the format of its opcode reserves is set (R54). -/
theorem decode_eq_reserved {w : Word} : decode w = .reserved ↔ ¬ ReservedBitsClear (opField w) w := by
  rcases opcode_cases (opField w) with hop | hop | hop | hop | hop | hop | hop | hop <;> rw [decode, hop]
  all_goals simp [ReservedBitsClear, decodeR, decodeI, decodeJ, decodeO]

/-! ### By opcode and reserved bits, as numbers -/

theorem toNat_opField (w : Word) : (opField w).toNat = w.toNat / 8192 := by
  rw [opField, BitVec.extractLsb'_toNat, Nat.shiftRight_eq_div_pow]
  omega

/-- A field of a Word is 0 as a number. -/
theorem extractLsb'_eq_zero_iff (w : Word) (lo len : Nat) :
    w.extractLsb' lo len = 0#len ↔ w.toNat / 2 ^ lo % 2 ^ len = 0 := by
  rw [BitVec.toNat_eq, BitVec.extractLsb'_toNat, Nat.shiftRight_eq_div_pow]
  simp

/-- The reserved bits of each format as numbers. -/
theorem not_reservedBitsClear_iff (op : BitVec 3) (w : Word) : ¬ ReservedBitsClear op w ↔
    ((op.toNat = 0 ∨ op.toNat = 1) ∧ w.toNat / 8 % 16 ≠ 0) ∨
    (2 ≤ op.toNat ∧ op.toNat ≤ 5 ∧ w.toNat / 32 % 4 ≠ 0) ∨
    (op.toNat = 6 ∧ w.toNat % 128 ≠ 0) ∨
    (op.toNat = 7 ∧ w.toNat % 8192 ≠ 0) := by
  rcases opcode_cases op with rfl | rfl | rfl | rfl | rfl | rfl | rfl | rfl
  all_goals simp [ReservedBitsClear, extractLsb'_eq_zero_iff]

/-- The encoder yields no reserved Word, `noop` included (R55). -/
theorem decode_encode_ne_reserved (i : Instr) : decode (encode i) ≠ .reserved := by
  cases i with
  | noop => decide
  | add | nand | addi | lw | sw | beq | jalr | halt => exact ne_of_eq_of_ne (decode_encode rfl) nofun

/-- Settles O8: the reserved bits of each format, no encoding among the reserved Words, and the trap of a fetch of one. -/
theorem reservedBitsByFormat : Obligations.ReservedBitsByFormat := by
  refine ⟨fun w => ?_, decode_encode_ne_reserved, fun s hs hpc hd => ?_⟩
  · rw [decode_eq_reserved, not_reservedBitsClear_iff, toNat_opField]
  · have hf : s.arch.fetch = .trap .reservedEncoding (s.arch.readMem s.arch.pc) :=
      Arch.fetch_trap.mpr (.inr ⟨rfl, rfl, hpc, hd⟩)
    exact ⟨_, step_trap hs hf, rfl, rfl, rfl, rfl, rfl, rfl, rfl, rfl⟩

/-! ### By mask and match -/

/-- The bits below the opcode that the format of the opcode `op` reserves, set (R47 to R50). -/
def reservedMask (op : BitVec 3) : BitVec 13 :=
  match op.toNat with
  | 0 | 1 => 0x0078
  | 2 | 3 | 4 | 5 => 0x0060
  | 6 => 0x007F
  | _ => 0x1FFF

/-- The mask and the match of the opcode `op`: the opcode field and the reserved bits, and the opcode with 0 (R53). -/
def maskAndMatch (op : BitVec 3) : Word × Word := (7#3 ++ reservedMask op, op ++ 0#13)

/-- A field is 0 exactly when the mask of ones at its place selects nothing. -/
theorem extractLsb'_eq_zero_iff_and_ones {n lo len : Nat} (w : BitVec n) (h : lo + len ≤ n) :
    w.extractLsb' lo len = 0#len ↔ w &&& ((BitVec.allOnes len).setWidth n <<< lo) = 0#_ := by
  simp only [BitVec.eq_of_getLsbD_eq_iff]
  constructor
  · intro hz i hi
    by_cases hb : lo ≤ i ∧ i - lo < len
    · have hbit : w.getLsbD i = false := by simpa [hb.1, hb.2] using hz (i - lo) hb.2
      simp [hbit]
    · have hone : ((BitVec.allOnes len).setWidth n <<< lo).getLsbD i = false := by
        simp only [BitVec.getLsbD_shiftLeft, BitVec.getLsbD_setWidth, BitVec.getLsbD_allOnes]
        grind
      simp [hone]
  · intro hz i hi
    have hb := hz (lo + i) (by omega)
    simpa [hi, show lo + i < n by omega] using hb

theorem reservedBitsClear_iff_mask (op : BitVec 3) (w : Word) :
    ReservedBitsClear op w ↔ w.extractLsb' 0 13 &&& reservedMask op = 0#13 := by
  have hfield {lo len : Nat} (h : lo + len ≤ 13) : w.extractLsb' lo len = 0#len ↔
      w.extractLsb' 0 13 &&& ((BitVec.allOnes len).setWidth 13 <<< lo) = 0#_ := by
    rw [← extractLsb'_eq_zero_iff_and_ones _ h, BitVec.extractLsb'_extractLsb'_of_le h]
  rcases opcode_cases op with rfl | rfl | rfl | rfl | rfl | rfl | rfl | rfl
  all_goals exact hfield (by decide)

/-- A Word meets the pattern of an opcode exactly when it has that opcode and its reserved bits are 0. -/
theorem and_mask_eq_match (op : BitVec 3) (w : Word) :
    w &&& (maskAndMatch op).1 = (maskAndMatch op).2 ↔ opField w = op ∧ ReservedBitsClear op w := by
  have hw : w &&& (maskAndMatch op).1 = opField w ++ (w.extractLsb' 0 13 &&& reservedMask op) := by
    conv_lhs => rw [word_eq_fieldsO w]
    exact BitVec.and_append.trans (congrArg (· ++ _) BitVec.and_allOnes)
  rw [reservedBitsClear_iff_mask, hw, maskAndMatch]
  constructor
  · intro h
    refine ⟨?_, ?_⟩
    · simpa only [BitVec.extractLsb'_append_eq_left] using congrArg (BitVec.extractLsb' 13 3) h
    · simpa only [BitVec.extractLsb'_append_eq_right] using congrArg (BitVec.extractLsb' 0 13) h
  · rintro ⟨rfl, h⟩
    rw [h]

/-- Settles O7: the patterns are those of the eight opcodes, and a Word meets at most that of its own. -/
theorem reservedIffNoPattern : Obligations.ReservedIffNoPattern := by
  unfold Obligations.ReservedIffNoPattern
  intro patterns
  have hp : patterns = [0, 1, 2, 3, 4, 5, 6, 7].map maskAndMatch := by decide
  have hmem : ∀ p, p ∈ patterns ↔ ∃ op, maskAndMatch op = p := by
    intro p
    rw [hp, List.mem_map]
    exact exists_congr fun op => and_iff_right (by simpa using opcode_cases op)
  simp only [hmem, forall_exists_index, forall_apply_eq_imp_iff, decode_eq_reserved, ne_eq, and_mask_eq_match]
  refine ⟨fun w => ⟨?_, fun h hc => h _ ⟨rfl, hc⟩⟩, ?_⟩
  · rintro h op ⟨rfl, hc⟩
    exact h hc
  · rintro w op op' ⟨rfl, -⟩ ⟨rfl, -⟩
    rfl

end Sys2Proof
end

section
/-! PROOF. The immediate (30_encoding R51) and the target of a branch with it (42_control R80). -/

namespace Sys2Proof.Machine

/-- Sign extension keeps the value. -/
theorem toInt_sextImm (imm : Imm5) : (sextImm imm).toInt = imm.toInt :=
  BitVec.toInt_signExtend_of_le (by decide)

/-- The field of a value in range holds that value (R51). -/
theorem toInt_ofInt {n : Int} (hn : -16 ≤ n ∧ n ≤ 15) : (Imm5.ofInt n).toInt = n :=
  BitVec.toInt_ofInt_eq_self (by decide) (by omega) (by omega)

/-- Settles O9: the sign extension has the two's complement value of the field. -/
theorem immediateIsSignExtended : Obligations.ImmediateIsSignExtended := by
  refine ⟨fun imm => ?_, fun imm => ?_, fun n h h' => ⟨Imm5.toNat_ofInt n, ?_⟩⟩
  · rw [toInt_sextImm, BitVec.toInt_eq_toNat_cond]
    split <;> split <;> omega
  · rw [toInt_sextImm]
    have hlo := imm.le_toInt
    have hhi := imm.toInt_lt
    omega
  · rw [toInt_sextImm, toInt_ofInt ⟨h, h'⟩]

/-- The branch with an offset in range lands at that distance from the next Word, where an address stands there. -/
theorem branchTarget_ofInt {a : Arch} {n : Int} {there : Nat} (hn : -16 ≤ n ∧ n ≤ 15)
    (h : (there : Int) = a.pc.toNat + 1 + n) (hlt : there < 65536) : (branchTarget a (Imm5.ofInt n)).toNat = there := by
  have hs : sextImm (Imm5.ofInt n) = BitVec.ofInt 16 n := by
    rw [← BitVec.toInt_inj, toInt_sextImm, toInt_ofInt hn]
    exact (BitVec.toInt_ofInt_eq_self (by decide) (by omega) (by omega)).symm
  rw [branchTarget, hs, BitVec.toNat_add, BitVec.toNat_add, BitVec.toNat_ofInt,
    show (1 : Word).toNat = 1 from rfl]
  omega

end Sys2Proof.Machine
end

section
/-! PROOF. What one line of assembly can answer (30_encoding R61 to R68): the same Words whatever its number, or an error
other than `DuplicateLabel`. -/

namespace Sys2Proof.Machine.Assembler

/-- What a line of assembly other than a directive answers, as a function of its number. -/
inductive LineAnswer (answer : Nat → Except Error Assembled) : Prop where
  /-- The same Words whatever its number, and no report. -/
  | words (ws : List Word) (eq : ∀ line, answer line = .ok ⟨ws, []⟩)
  /-- An error, which is never that of pass one. -/
  | error (e : Nat → Error) (ne : ∀ line, e line ≠ .duplicateLabel) (eq : ∀ line, answer line = .error (e line))

theorem lineAnswer_emitImm (n : Int) (mk : Imm5 → Instr) : LineAnswer fun line => emitImm line n mk := by
  by_cases hn : -16 ≤ n ∧ n ≤ 15
  · exact .words _ fun line => emitImm_eq_ok.mpr ⟨hn, rfl⟩
  · exact .error (.offsetTooLarge n) (by simp) fun line => by simp [emitImm, immField, hn, Except.map]

/-- The Word of a label is the same for every line, or it is refused for a reason of its own. -/
theorem labelWord_cases (t : Labels) (name : String) :
    (∃ w, ∀ line, labelWord t line name = .ok w) ∨
    ∃ e : Nat → Error, (∀ line, e line ≠ .duplicateLabel) ∧ ∀ line, labelWord t line name = .error (e line) := by
  unfold labelWord
  cases t.find name with
  | none => exact .inr ⟨.notANumber, by simp, fun _ => rfl⟩
  | some there =>
    by_cases h : there < 2 ^ Config.xlen
    · exact .inl ⟨_, fun _ => if_pos h⟩
    · exact .inr ⟨.wordValueOpen there, by simp, fun _ => if_neg h⟩

theorem lineAnswer_wordLabel (t : Labels) (name : String) :
    LineAnswer fun line => (labelWord t line name).map .word := by
  rcases labelWord_cases t name with ⟨w, hw⟩ | ⟨e, hne, he⟩
  · exact .words [w] fun line => by rw [hw]; rfl
  · exact .error e hne fun line => by rw [he]; rfl

theorem lineAnswer_emitLa (la : Option LaExpansion) (t : Labels) (here : Nat) (rx : Reg) (sym : String) :
    LineAnswer fun line => emitLa la t here line rx sym := by
  cases la with
  | none => exact .error .laExpansionOpen (by simp) fun _ => rfl
  | some x =>
    rcases labelWord_cases t sym with ⟨w, hw⟩ | ⟨e, hne, he⟩
    · cases hx : x.words rx here w with
      | none => exact .error .laOutOfReach (by simp) fun line => by simp [emitLa, hw, hx]
      | some ws => exact .words ws fun line => by simp [emitLa, hw, hx]
    · exact .error e hne fun line => by simp [emitLa, he]

section
variable (la : Option LaExpansion) {t : Labels} (a line : Nat) (rx ry : Reg) {name : String}

/-- A branch to a bound label has the offset to it (R62). -/
theorem emitLine_beqLabel {there : Nat} (hf : t.find name = some there) :
    emitLine la t a line (.beq rx ry (.label name)) = emitImm line (branchOffset there a) (.beq rx ry) := by
  simp [emitLine, hf]

theorem emitLine_beqLabel_unbound (hf : t.find name = none) :
    emitLine la t a line (.beq rx ry (.label name)) = .error (.unrecognizedInstruction line) := by
  simp [emitLine, hf]

end

theorem lineAnswer_emitLine (la : Option LaExpansion) (t : Labels) (a : Nat) {op : Operation} (hop : op ≠ .unsupported) :
    LineAnswer fun line => emitLine la t a line op := by
  cases op with
  | add | nand | jalr | halt | noop => exact .words _ fun _ => rfl
  | addi | lw | sw => exact lineAnswer_emitImm ..
  | beq rx ry target =>
    cases target with
    | offset n => exact lineAnswer_emitImm ..
    | label name =>
      cases hf : t.find name with
      | none => exact .error .unrecognizedInstruction (by simp) fun line => emitLine_beqLabel_unbound la a line rx ry hf
      | some there => simpa only [emitLine_beqLabel la a _ rx ry hf] using lineAnswer_emitImm ..
  | word v =>
    cases v with
    | label name => exact lineAnswer_wordLabel ..
    | literal v => exact .words [v] fun _ => rfl
    | malformed => exact .error .notANumber (by simp) fun _ => rfl
  | la rx sym => exact lineAnswer_emitLa ..
  | unsupported => exact absurd rfl hop
  | unrecognized => exact .error .unrecognizedInstruction (by simp) fun _ => rfl

theorem emitLine_unsupported (la : Option LaExpansion) (t : Labels) (a line : Nat) :
    emitLine la t a line .unsupported = .ok ⟨[], [.unsupportedDirective line]⟩ := rfl

/-- Only pass one answers `DuplicateLabel`. -/
theorem emitLine_ne_duplicateLabel (la : Option LaExpansion) (t : Labels) (a line : Nat) (op : Operation) :
    emitLine la t a line op ≠ .error .duplicateLabel := by
  by_cases hop : op = .unsupported
  · simp [hop, emitLine_unsupported]
  · cases lineAnswer_emitLine la t a hop with
    | words ws heq => simp [heq line]
    | error e hne heq => simpa [heq line] using hne line

/-- A line that is no directive makes no report, and its Words do not depend on its number. -/
theorem emitLine_ok {la : Option LaExpansion} {t : Labels} {a line : Nat} {op : Operation} {out : Assembled}
    (hop : op ≠ .unsupported) (h : emitLine la t a line op = .ok out) :
    out.reports = [] ∧ ∀ line', emitLine la t a line' op = .ok out := by
  cases lineAnswer_emitLine la t a hop with
  | words ws heq =>
    obtain rfl := Except.ok.inj ((heq line).symm.trans h)
    exact ⟨rfl, heq⟩
  | error e hne heq => cases (heq line).symm.trans h

/-- The label that an operation refers to is bound, if the operation yields anything. -/
theorem find_of_emitLine {la : Option LaExpansion} {t : Labels} {a line : Nat} {op : Operation} {out : Assembled}
    {name : String} (hop : op = .word (.label name) ∨ (∃ rx ry, op = .beq rx ry (.label name)) ∨ ∃ rx, op = .la rx name)
    (h : emitLine la t a line op = .ok out) : ∃ there, t.find name = some there := by
  rcases hop with rfl | ⟨rx, ry, rfl⟩ | ⟨rx, rfl⟩
  · cases hw : labelWord t line name with
    | ok w => exact ⟨_, labelWord_eq_ok.mp hw⟩
    | error e => simp [hw, Except.map] at h
  · cases hf : t.find name with
    | some there => exact ⟨there, rfl⟩
    | none => cases (emitLine_beqLabel_unbound la a line rx ry hf).symm.trans h
  · obtain ⟨-, data, -, -, hf, -⟩ := emitLa_eq_ok.mp h
    exact ⟨_, hf⟩

end Sys2Proof.Machine.Assembler
end

section
/-! PROOF. The assembler's labels (30_encoding R60, R68): each is bound once, to the address of its line. -/

namespace Sys2Proof.Machine.Assembler

/-! ### Pass one -/

theorem Labels.find_cons_eq_none {t : Labels} {n m : String} {a : Nat} :
    Labels.find ((n, a) :: t) m = none ↔ m ≠ n ∧ t.find m = none := by
  rw [Labels.find_cons]
  split <;> simp_all

/-- No line of `lines` has a second label, and no label stands twice or is bound in `t` before. -/
structure LabelsOnce (t : Labels) (lines : List Line) : Prop where
  atMostOne : ∀ l ∈ lines, l.labels.length < 2
  fresh : ∀ l ∈ lines, ∀ name ∈ l.labels, t.find name = none
  distinct : lines.Pairwise fun l m => ∀ name ∈ l.labels, name ∉ m.labels

theorem bindLabels_error {a : Nat} {t : Labels} {lines : List Line} {e : Error} (h : bindLabels a t lines = .error e) :
    e = .duplicateLabel := by
  induction lines generalizing a t with
  | nil => cases h
  | cons l ls ih =>
    unfold bindLabels at h
    split at h
    · exact ih h
    · split at h
      · cases h; rfl
      · exact ih h
    · cases h; rfl

/-- What pass one binds leaves no duplicate. -/
theorem LabelsOnce.of_bindLabels {a : Nat} {t u : Labels} {lines : List Line} (h : bindLabels a t lines = .ok u) :
    LabelsOnce t lines := by
  induction lines generalizing a t with
  | nil => exact ⟨by simp, by simp, .nil⟩
  | cons l ls ih =>
    rcases bindLabels_cons h with ⟨hl, hr⟩ | ⟨n, hl, hf, hr⟩
    · obtain ⟨hone, hfresh, hdistinct⟩ := ih hr
      exact ⟨by simpa [hl] using hone, by simpa [hl] using hfresh, List.pairwise_cons.mpr ⟨by simp [hl], hdistinct⟩⟩
    · obtain ⟨hone, hfresh, hdistinct⟩ := ih hr
      have hne : ∀ m ∈ ls, ∀ name ∈ m.labels, name ≠ n ∧ t.find name = none := by
        simpa only [Labels.find_cons_eq_none] using hfresh
      refine ⟨by simpa [hl] using hone, ?_, List.pairwise_cons.mpr ⟨?_, hdistinct⟩⟩
      · simpa [hl, hf] using fun m hm name hn => (hne m hm name hn).2
      · simpa [hl] using fun m hm hn => (hne m hm n hn).1 rfl

/-- A source without a duplicate passes pass one. -/
theorem LabelsOnce.bindLabels {t : Labels} {lines : List Line} (h : LabelsOnce t lines) (a : Nat) :
    ∃ u, bindLabels a t lines = .ok u := by
  induction lines generalizing a t with
  | nil => exact ⟨t, rfl⟩
  | cons l ls ih =>
    obtain ⟨hone, hfresh, hdistinct⟩ := h
    rw [List.forall_mem_cons] at hone hfresh
    rw [List.pairwise_cons] at hdistinct
    unfold Assembler.bindLabels
    split
    · exact ih ⟨hone.2, hfresh.2, hdistinct.2⟩ _
    · rename_i n hl
      have hn : n ∈ l.labels := by simp [hl]
      rw [hfresh.1 n hn]
      refine ih ⟨hone.2, fun m hm name hname => ?_, hdistinct.2⟩ _
      refine Labels.find_cons_eq_none.mpr ⟨?_, hfresh.2 m hm name hname⟩
      rintro rfl
      exact hdistinct.1 m hm _ hn hname
    · rename_i hl
      simp [hl] at hone

/-- Every label is bound to the address of its line. -/
theorem find_of_bindLabels {lines : List Line} {a : Nat} {t u : Labels} (h : bindLabels a t lines = .ok u) {j : Nat}
    {l : Line} {name : String} (hj : lines[j]? = some l) (hn : name ∈ l.labels) :
    u.find name = some (a + lineAddress lines j) := by
  induction lines generalizing a t j with
  | nil => cases hj
  | cons m ls ih =>
    cases j with
    | zero =>
      cases hj
      rcases bindLabels_cons h with ⟨hl, -⟩ | ⟨n, hl, -, hr⟩
      · simp [hl] at hn
      · obtain rfl : name = n := by simpa [hl] using hn
        exact bindLabels_keeps hr (by rw [Labels.find_cons, if_pos rfl]; rfl)
    | succ j =>
      rw [lineAddress_succ, ← Nat.add_assoc]
      rcases bindLabels_cons h with ⟨-, hr⟩ | ⟨n, -, -, hr⟩
      · exact ih hr hj
      · exact ih hr hj

/-- A label that no line has is bound only where it was. -/
theorem find_of_bindLabels_of_not_mem {lines : List Line} {a : Nat} {t u : Labels} (h : bindLabels a t lines = .ok u)
    {name : String} (hn : ∀ m ∈ lines, name ∉ m.labels) : u.find name = t.find name := by
  induction lines generalizing a t with
  | nil => cases h; rfl
  | cons l ls ih =>
    rw [List.forall_mem_cons] at hn
    rcases bindLabels_cons h with ⟨-, hr⟩ | ⟨n, hl, -, hr⟩
    · exact ih hr hn.2
    · rw [ih hr hn.2, Labels.find_cons, if_neg]
      rintro rfl
      simp [hl] at hn

/-! ### Both passes -/

theorem emit_ne_duplicateLabel (la : Option LaExpansion) (t : Labels) (a line : Nat) (lines : List Line) :
    emit la t a line lines ≠ .error .duplicateLabel := by
  induction lines generalizing a line with
  | nil => nofun
  | cons l ls ih =>
    unfold emit
    split
    · rename_i e he
      rintro ⟨⟩
      exact emitLine_ne_duplicateLabel _ _ _ _ _ he
    · split
      · rename_i e he
        rintro ⟨⟩
        exact ih _ _ he
      · nofun

/-- Assembly answers `DuplicateLabel` exactly where a label is not bound once. -/
theorem assemble_eq_duplicateLabel {la : Option LaExpansion} {lines : List Line} :
    assemble la lines = .error .duplicateLabel ↔ ¬ LabelsOnce [] lines := by
  unfold assemble
  cases hb : bindLabels 0 [] lines with
  | error e =>
    obtain rfl := bindLabels_error hb
    refine iff_of_true rfl fun h => ?_
    obtain ⟨u, hu⟩ := h.bindLabels 0
    rw [hb] at hu
    cases hu
  | ok t => exact iff_of_false (emit_ne_duplicateLabel la t 0 0 lines) (not_not_intro (.of_bindLabels hb))

theorem labelsOnce_nil_iff {lines : List Line} : LabelsOnce [] lines ↔ (∀ l ∈ lines, l.labels.length < 2) ∧
    ∀ (j k : Nat) (l m : Line) (name : String), j < k → lines[j]? = some l → lines[k]? = some m →
      name ∈ l.labels → name ∉ m.labels := by
  constructor
  · rintro ⟨hone, -, hdistinct⟩
    refine ⟨hone, fun j k l m name hjk hj hk => ?_⟩
    obtain ⟨hj', rfl⟩ := List.getElem?_eq_some_iff.mp hj
    obtain ⟨hk', rfl⟩ := List.getElem?_eq_some_iff.mp hk
    exact List.pairwise_iff_getElem.mp hdistinct j k hj' hk' hjk name
  · rintro ⟨hone, hdistinct⟩
    refine ⟨hone, fun _ _ _ _ => rfl, List.pairwise_iff_getElem.mpr fun j k hj hk hjk name => ?_⟩
    exact hdistinct j k _ _ name hjk (List.getElem?_eq_getElem hj) (List.getElem?_eq_getElem hk)

/-- A duplicate is a line with two labels, or two lines with the same label. -/
theorem not_labelsOnce_iff {lines : List Line} : ¬ LabelsOnce [] lines ↔
    (∃ l ∈ lines, 2 ≤ l.labels.length) ∨
      ∃ (j k : Nat) (l m : Line) (name : String), j < k ∧ lines[j]? = some l ∧ lines[k]? = some m ∧
        name ∈ l.labels ∧ name ∈ m.labels := by
  rw [labelsOnce_nil_iff, not_and_or]
  push Not
  rfl

/-- Settles O59: pass one finds the duplicates and binds the rest, and a line that yields anything has its label bound. -/
theorem labelsAreBoundOnce : Obligations.LabelsAreBoundOnce := by
  intro la lines
  refine ⟨assemble_eq_duplicateLabel.trans not_labelsOnce_iff, fun t ht j l name hj hn => ?_,
    fun l name hl hop hn => ?_⟩
  · rw [find_of_bindLabels ht hj hn, Nat.zero_add]
  · cases ha : assemble la lines with
    | error e => exact ⟨e, rfl⟩
    | ok out =>
      obtain ⟨t, ht, hout⟩ := assemble_eq_ok.mp ha
      obtain ⟨k, hk⟩ := List.getElem?_of_mem hl
      obtain ⟨x, hx, -⟩ := emit_line hout hk
      obtain ⟨there, hf⟩ := find_of_emitLine hop hx
      rw [find_of_bindLabels_of_not_mem ht hn] at hf
      cases hf

end Sys2Proof.Machine.Assembler
end

section
/-! PROOF. The Words of an assembled source: a branch lands on its label (30_encoding R62, 42_control R80), every line
yields the Words of its size (R59, R67), and directives yield reports alone (R66). -/

namespace Sys2Proof.Machine.Assembler

/-! ### Branches -/

theorem emitImm_eq_error {line : Nat} {n : Int} {mk : Imm5 → Instr} {e : Error} :
    emitImm line n mk = .error e ↔ ¬ (-16 ≤ n ∧ n ≤ 15) ∧ e = .offsetTooLarge n line := by
  unfold emitImm immField
  split <;> simp_all [Except.map, eq_comm]

/-- What a branch to a bound label yields decodes to the branch, which lands on the label from the address of the line. -/
theorem emitLine_beqLabel_lands {la : Option LaExpansion} {t : Labels} {a : Arch} {line there : Nat} {rx ry : Reg}
    {name : String} {out : Assembled} (hf : t.find name = some there) (hlt : there < 65536)
    (h : emitLine la t a.pc.toNat line (.beq rx ry (.label name)) = .ok out) :
    ∃ w imm, out = ⟨[w], []⟩ ∧ decode w = .instr (.beq rx ry imm) ∧ (branchTarget a imm).toNat = there := by
  rw [emitLine_beqLabel _ _ _ _ _ hf, emitImm_eq_ok] at h
  obtain ⟨hn, rfl⟩ := h
  exact ⟨_, _, rfl, decode_encode rfl, branchTarget_ofInt hn (by rw [branchOffset]; omega) hlt⟩

/-- Settles O57: one line by its Word or its error, and a whole source by the Words of that line and the address its label
is bound to. -/
theorem assembledBranchLandsOnItsLabel : Obligations.AssembledBranchLandsOnItsLabel := by
  refine ⟨fun la a t name there line rx ry hf hlt => ?_, ?_⟩
  · cases h : emitLine la t a.pc.toNat line (.beq rx ry (.label name)) with
    | ok out => exact emitLine_beqLabel_lands hf hlt h
    | error e =>
      rw [emitLine_beqLabel _ _ _ _ _ hf, emitImm_eq_error, branchOffset] at h
      exact ⟨h.2, by omega⟩
  · intro la lines out k j here there name rx ry a h hk hop hj hname hpc hlt
    obtain ⟨t, ht, hout⟩ := assemble_eq_ok.mp h
    obtain ⟨x, hx, hwords⟩ := emit_line hout hk
    have hf := find_of_bindLabels ht hj hname
    rw [Nat.zero_add] at hf
    rw [hop, Nat.zero_add, ← hpc] at hx
    obtain ⟨w, imm, rfl, hd, htarget⟩ := emitLine_beqLabel_lands hf hlt hx
    exact ⟨w, imm, hpc ▸ hwords 0 Nat.one_pos, hd, htarget⟩

/-! ### Sizes -/

theorem emit_length {la : Option LaExpansion} {t : Labels} {a line : Nat} {lines : List Line} {out : Assembled}
    (h : emit la t a line lines = .ok out) : out.words.length = (lines.map fun l => l.op.size).sum := by
  induction lines generalizing a line out with
  | nil =>
    cases h
    rfl
  | cons l ls ih =>
    obtain ⟨first, rest, hf, hr, rfl⟩ := emit_cons h
    simp [Assembled.append, emitLine_size hf, ih hr]

/-- The next line begins where this one ends. -/
theorem lineAddress_add_size {lines : List Line} {k : Nat} {l : Line} (hk : lines[k]? = some l) :
    lineAddress lines (k + 1) = lineAddress lines k + l.op.size := by
  simp [lineAddress, List.take_add_one, hk]

/-- The branch of a `la` jumps over one Word. -/
theorem branchTarget_one (a : Arch) : branchTarget a 1 = a.pc + 2 := by
  rw [branchTarget, BitVec.add_assoc]
  rfl

/-- Settles O58: the length by the sum over the lines, a `la` line by the Words of its expansion, and the refusal because a
`la` line that yields anything has an expansion. -/
theorem assembledLengthIsTheLinesSizes : Obligations.AssembledLengthIsTheLinesSizes := by
  refine ⟨fun la lines out h => ?_, ?_, ?_⟩
  · obtain ⟨t, -, hout⟩ := assemble_eq_ok.mp h
    exact emit_length hout
  · intro x lines out k j here there rx sym h hk hop hj hsym
    obtain ⟨t, ht, hout⟩ := assemble_eq_ok.mp h
    obtain ⟨first, hfirst, hwords⟩ := emit_line hout hk
    rw [hop, emitLine_la, emitLa_eq_ok] at hfirst
    obtain ⟨x', data, ws, hx, hf, hws, rfl⟩ := hfirst
    cases hx
    obtain ⟨hlen, d, hd, hbranch, hdata⟩ := LaExpansion.words_eq_some hws
    replace hwords : ∀ i < 4, out.words[lineAddress lines k + i]? = ws[i]? := hlen ▸ hwords
    rw [find_of_bindLabels ht hj hsym, Nat.zero_add] at hf
    refine ⟨by rw [lineAddress_add_size hk, hop]; rfl, d, data, _, x.branchReg rx, 1, hd, ?_, (Option.some.inj hf).symm, ?_,
      decode_encode rfl, branchTarget_one⟩
    · exact (hwords (d + 1) (by omega)).trans hdata
    · exact (hwords d (by omega)).trans hbranch
  · intro lines l rx sym hl hop
    cases h : assemble none lines with
    | error e => exact ⟨e, rfl⟩
    | ok out =>
      obtain ⟨t, -, hout⟩ := assemble_eq_ok.mp h
      obtain ⟨k, hk⟩ := List.getElem?_of_mem hl
      obtain ⟨first, hfirst, -⟩ := emit_line hout hk
      rw [hop, emitLine_la, emitLa_eq_ok] at hfirst
      obtain ⟨x, data, ws, hx, -⟩ := hfirst
      cases hx

/-! ### Directives -/

theorem emit_cons_ok {la : Option LaExpansion} {t : Labels} {a line : Nat} {l : Line} {ls : List Line}
    {first rest : Assembled} (hf : emitLine la t a line l.op = .ok first)
    (hr : emit la t (a + l.op.size) (line + 1) ls = .ok rest) : emit la t a line (l :: ls) = .ok (first.append rest) := by
  simp [emit, hf, hr]

theorem emitLine_reports {la : Option LaExpansion} {t : Labels} {a line : Nat} {op : Operation} {out : Assembled}
    (h : emitLine la t a line op = .ok out) :
    out.reports = if op = .unsupported then [.unsupportedDirective line] else [] := by
  split
  · rename_i hop
    rw [hop, emitLine_unsupported] at h
    cases h
    rfl
  · rename_i hop
    exact (emitLine_ok hop h).1

/-- The reports of the directives among `lines`, the first line being of number `line` (R66). -/
def directiveReports (line : Nat) (lines : List Line) : List Report :=
  ((List.range lines.length).filter fun k => lines[k]?.map Line.op = some .unsupported).map
    fun k => .unsupportedDirective (line + k)

theorem directiveReports_cons (line : Nat) (l : Line) (ls : List Line) : directiveReports line (l :: ls) =
    (if l.op = .unsupported then [.unsupportedDirective line] else []) ++ directiveReports (line + 1) ls := by
  unfold directiveReports
  rw [List.length_cons, List.range_succ_eq_map, List.filter_cons, List.filter_map]
  by_cases hop : l.op = .unsupported <;> simp [hop, Function.comp_def, Nat.add_right_comm line 1, ← Nat.add_assoc]

/-- Pass two reports the directives, each by its line number. -/
theorem emit_reports {la : Option LaExpansion} {t : Labels} {lines : List Line} {a line : Nat} {out : Assembled}
    (h : emit la t a line lines = .ok out) : out.reports = directiveReports line lines := by
  induction lines generalizing a line out with
  | nil =>
    cases h
    rfl
  | cons l ls ih =>
    obtain ⟨first, rest, hf, hr, rfl⟩ := emit_cons h
    rw [directiveReports_cons, ← emitLine_reports hf, ← ih hr]
    rfl

/-- Pass one does not see directives without labels: they have no size. -/
theorem bindLabels_filter {lines : List Line} (hl : ∀ l ∈ lines, l.op = .unsupported → l.labels = []) (a : Nat)
    (t : Labels) : bindLabels a t (lines.filter fun l => l.op ≠ .unsupported) = bindLabels a t lines := by
  induction lines generalizing a t with
  | nil => rfl
  | cons l ls ih =>
    rw [List.forall_mem_cons] at hl
    have ih := ih hl.2
    by_cases hop : l.op = .unsupported
    · rw [List.filter_cons_of_neg (by simpa using hop), ih]
      simp [bindLabels, hl.1 hop, hop, Operation.size]
    · rw [List.filter_cons_of_pos (by simpa using hop)]
      simp only [bindLabels, ih]

/-- Pass two yields the same Words with the directives as without, at whatever line numbers. -/
theorem emit_of_filter {la : Option LaExpansion} {t : Labels} {lines : List Line} {a line : Nat} {out : Assembled}
    (h : emit la t a line (lines.filter fun l => l.op ≠ .unsupported) = .ok out) (line' : Nat) :
    ∃ full, emit la t a line' lines = .ok full ∧ full.words = out.words := by
  induction lines generalizing a line line' out with
  | nil => exact ⟨out, h, rfl⟩
  | cons l ls ih =>
    by_cases hop : l.op = .unsupported
    · rw [List.filter_cons_of_neg (by simpa using hop)] at h
      obtain ⟨full, hfull, hw⟩ := ih h (line' + 1)
      have hf := emitLine_unsupported la t a line'
      rw [← hop] at hf
      exact ⟨_, emit_cons_ok hf (by rw [hop]; exact hfull), hw⟩
    · rw [List.filter_cons_of_pos (by simpa using hop)] at h
      obtain ⟨first, rest, hf, hr, rfl⟩ := emit_cons h
      obtain ⟨full, hfull, hw⟩ := ih hr (line' + 1)
      exact ⟨_, emit_cons_ok ((emitLine_ok hop hf).2 line') hfull, by rw [Assembled.append, Assembled.append, hw]⟩

/-- Settles O60: pass two reports the directives alone, and both passes do without them. -/
theorem unsupportedDirectivesAreReported : Obligations.UnsupportedDirectivesAreReported := by
  refine ⟨fun la lines out h => ?_, fun la lines out h hl => ?_⟩
  · obtain ⟨t, -, hout⟩ := assemble_eq_ok.mp h
    simpa [directiveReports] using emit_reports hout
  · obtain ⟨t, ht, hout⟩ := assemble_eq_ok.mp h
    rw [bindLabels_filter hl] at ht
    obtain ⟨full, hfull, hw⟩ := emit_of_filter hout 0
    exact ⟨full, assemble_eq_ok.mpr ⟨t, ht, hfull⟩, hw⟩

end Sys2Proof.Machine.Assembler
end

section
/-! PROOF. The ALU instructions (40_alu R70 to R74): the value each computes, as a number or bit by bit, and the frame they
share with every instruction that writes one register and goes to the next Word. -/

namespace Sys2Proof.Machine

/-! ### What the ALU computes (R74) -/

theorem toNat_aluAdd (v w : Word) : (aluAdd v w).toNat = (v.toNat + w.toNat) % 65536 := BitVec.toNat_add v w

/-- The sign-extended immediate as an unsigned Word. -/
theorem toNat_sextImm (imm : Imm5) : ((sextImm imm).toNat : Int) = imm.toInt % 65536 := by
  rw [← toInt_sextImm, BitVec.toInt_eq_toNat_cond]
  split <;> omega

/-- Adding a sign-extended immediate adds its two's complement value modulo 65536. -/
theorem toNat_aluAdd_sextImm (v : Word) (imm : Imm5) :
    ((aluAdd v (sextImm imm)).toNat : Int) = (v.toNat + imm.toInt) % 65536 := by
  have hsext := toNat_sextImm imm
  rw [toNat_aluAdd]
  omega

theorem getLsbD_aluNand (v w : Word) {k : Nat} (hk : k < 16) :
    (aluNand v w).getLsbD k = !(v.getLsbD k && w.getLsbD k) := by
  simp [aluNand, hk]

/-! ### The frame of a register write -/

theorem toNat_pc_add_one (pc : Word) : (pc + 1).toNat = (pc.toNat + 1) % 65536 := BitVec.toNat_add pc 1

/-- An instruction that executes by writing `v` to `rd` and going to the next Word changes nothing else, and its value
is discarded where `rd` is register 0 (10_state R11, 44_step_run R85). -/
theorem exists_next_of_exec_setReg {i : Instr} {s : State} {rd : Reg} {v : Word}
    (h : exec i s = s.executed .running (s.arch.setReg rd v).nextPc) :
    ∃ t, exec i s = .next t ∧ t.arch.reg rd = (if rd = .r0 then 0 else v) ∧
      t.arch.pc.toNat = (s.arch.pc.toNat + 1) % 65536 ∧
      SameRegsBut rd s.arch t.arch ∧ SameMemory s.arch t.arch ∧ ExecutedFrom s t .running := by
  refine ⟨_, h, ?_, toNat_pc_add_one _, fun r hr => RegFile.get_set_ne _ v hr, fun _ => rfl, rfl, rfl, rfl, rfl, rfl,
    rfl, rfl⟩
  by_cases h0 : rd = .r0 <;> simp [Arch.reg_setReg, h0]

/-! ### The instructions -/

/-- Settles O10: the sum in the destination, and the frame of a register write. -/
theorem addResultAndFrame : Obligations.AddResultAndFrame := by
  intro s rx ry rz
  obtain ⟨t, ht, hreg, hframe⟩ := exists_next_of_exec_setReg (i := .add rx ry rz) (s := s) rfl
  refine ⟨encode_add rx ry rz, t, ht, ?_, hframe⟩
  rw [hreg, apply_ite BitVec.toNat, toNat_aluAdd]
  rfl

/-- Settles O11: each bit of the destination, and the frame of a register write. -/
theorem nandResultAndFrame : Obligations.NandResultAndFrame := by
  intro s rx ry rz
  obtain ⟨t, ht, hreg, hframe⟩ := exists_next_of_exec_setReg (i := .nand rx ry rz) (s := s) rfl
  refine ⟨encode_nand rx ry rz, t, ht, fun k hk => ?_, hframe⟩
  rw [hreg]
  by_cases h0 : rx = .r0
  · simp [h0]
  · simp [h0, getLsbD_aluNand _ _ hk]

/-- Settles O12: the sum with the signed immediate in the destination, and the frame of a register write. -/
theorem addiResultAndFrame : Obligations.AddiResultAndFrame := by
  intro s rx ry imm
  obtain ⟨t, ht, hreg, hframe⟩ := exists_next_of_exec_setReg (i := .addi rx ry imm) (s := s) rfl
  refine ⟨encode_addi rx ry imm, t, ht, ?_, hframe⟩
  rw [hreg, apply_ite BitVec.toNat, Nat.cast_ite, toNat_aluAdd_sextImm]
  rfl

/-- The write of `add r0, r0, r0` is discarded, so it does what `noop` does (R73). -/
theorem exec_noop_eq_add_r0 (s : State) : exec .noop s = exec (.add .r0 .r0 .r0) s := rfl

/-- Settles O13: `noop` has the frame of `add r0, r0, r0`, which keeps register 0 too, since that reads 0. -/
theorem noopIsAddOfRegisterZero : Obligations.NoopIsAddOfRegisterZero := by
  refine ⟨rfl, by decide, fun s => ⟨exec_noop_eq_add_r0 s, ?_⟩⟩
  obtain ⟨t, ht, -, hpc, hregs, hmem, hexec⟩ :=
    exists_next_of_exec_setReg (i := .add .r0 .r0 .r0) (s := s) rfl
  refine ⟨t, (exec_noop_eq_add_r0 s).trans ht, hpc, fun r => ?_, hmem, hexec⟩
  by_cases h0 : r = .r0
  · rw [h0, Arch.reg_r0, Arch.reg_r0]
  · exact hregs r h0

end Sys2Proof.Machine
end

section
/-! PROOF. Load and store (41_load_store R75 to R77): the effective address wraps at 16 bits before the range test, and each
of the two instructions executes below MEMCAP and raises its fault from there on. -/

namespace Sys2Proof.Machine

/-! ### An instruction that raises no fault, and one that does (44_step_run R85, 60_exceptions R119) -/

theorem exec_of_noFault {i : Instr} {s : State} (h : faultOf i s.arch = none) :
    exec i s = s.executed (statusAfter i) (archAfter i s.arch) := by
  rw [exec_eq, h, State.executed_eq]

theorem executedFrom_executed (s : State) (st : Status) (a : Arch) :
    ExecutedFrom s { s with arch := a, status := st, hist := s.arch :: s.hist } st :=
  ⟨rfl, rfl, rfl, rfl, rfl, rfl, rfl⟩

theorem faultedFrom_raise (s : State) (c : FaultCause) (info : Word) : FaultedFrom s (s.raise c info) c.code info :=
  ⟨rfl, rfl, rfl, rfl, rfl, rfl, rfl, rfl⟩

/-- An instruction that raises a fault records its cause and value and changes nothing else but the status. -/
theorem exists_next_of_faultOf {i : Instr} {s : State} {c : FaultCause} {info : Word}
    (h : faultOf i s.arch = some (c, info)) : ∃ t, exec i s = .next t ∧ FaultedFrom s t c.code info :=
  ⟨s.raise c info, by rw [exec_eq, h], faultedFrom_raise s c info⟩

/-- The status tells whether an instruction raised a fault: one that executes leaves `Running` or `Halted`. -/
theorem exec_status_faulted_iff {i : Instr} {s t : State} (h : exec i s = .next t) :
    t.status = .faulted ↔ faultOf i s.arch ≠ none := by
  rcases exec_cases h with ⟨c, info, hf, rfl⟩ | ⟨hf, rfl⟩
  · simp [hf]
  · rcases statusAfter_cases i with hi | hi <;> simp [hf, hi]

/-! ### The effective address (R77) -/

theorem toNat_effectiveAddress (a : Arch) (ry : Reg) (imm : Imm5) :
    ((effectiveAddress a ry imm).toNat : Int) = ((a.reg ry).toNat + imm.toInt) % 65536 :=
  toNat_aluAdd_sextImm (a.reg ry) imm

section
variable {a : Arch} {rx ry : Reg} {imm : Imm5}

theorem faultOf_lw_eq_none : faultOf (.lw rx ry imm) a = none ↔ (effectiveAddress a ry imm).toNat < Config.memCap := by
  rw [← inRange_iff]
  simp [faultOf]

theorem faultOf_lw_beyond (h : Config.memCap ≤ (effectiveAddress a ry imm).toNat) :
    faultOf (.lw rx ry imm) a = some (.loadAddress, effectiveAddress a ry imm) := by
  simp [faultOf, (inRange_false_iff _).mpr h]

theorem faultOf_sw_beyond (h : Config.memCap ≤ (effectiveAddress a ry imm).toNat) :
    faultOf (.sw rx ry imm) a = some (.storeAddress, effectiveAddress a ry imm) := by
  simp [faultOf, (inRange_false_iff _).mpr h]

end

/-- Settles O14: the sum is that of `addi`, and `lw` and `sw` end `Faulted` exactly where they raise a fault, which is
out of range. -/
theorem effectiveAddressWraps : Obligations.EffectiveAddressWraps := by
  refine ⟨toNat_effectiveAddress, fun s rx ry imm t h => ?_⟩
  rcases h with h | h
  · rw [exec_status_faulted_iff h, Ne, faultOf_lw_eq_none, Nat.not_lt]
  · rw [exec_status_faulted_iff h, Ne, faultOf_sw_eq_none, Nat.not_lt]

/-! ### The instructions -/

/-- Settles O15: in range `lw` has the frame of a register write, and out of range it raises its fault. -/
theorem lwResultFaultAndFrame : Obligations.LwResultFaultAndFrame := fun _ rx ry imm =>
  ⟨encode_lw rx ry imm, fun h => exists_next_of_exec_setReg (exec_of_noFault (faultOf_lw_eq_none.mpr h)),
    fun h => exists_next_of_faultOf (faultOf_lw_beyond h)⟩

/-- Settles O16: in range `sw` has the laws of one memory write, and out of range it raises its fault. -/
theorem swResultFaultAndFrame : Obligations.SwResultFaultAndFrame := by
  intro s rx ry imm
  refine ⟨encode_sw rx ry imm, fun h => ?_, fun h => exists_next_of_faultOf (faultOf_sw_beyond h)⟩
  have hread : s.arch.mem.wf = true →
      (archAfter (.sw rx ry imm) s.arch).readMem (effectiveAddress s.arch ry imm) = s.arch.reg rx :=
    Arch.readMem_writeMem_self _ _
  have hother : SameMemoryBut (effectiveAddress s.arch ry imm) s.arch (archAfter (.sw rx ry imm) s.arch) :=
    fun _ hx => Arch.readMem_writeMem_ne _ _ hx
  exact ⟨_, exec_of_noFault (faultOf_sw_eq_none.mpr h), hread, hother, toNat_pc_add_one _, fun _ => rfl,
    executedFrom_executed s .running _⟩

end Sys2Proof.Machine
end

section
/-! PROOF. Control transfer and `halt` (42_control R80 to R82): the targets and the link as numbers, the fault of the next
fetch where a target has no storage, and that a machine is `Halted` by a `halt` alone (R148). -/

namespace Sys2Proof.Machine

/-! ### What leaves a machine Halted (R82, R148) -/

/-- The encoder gives `halt` one Word, and the decoder reads it from no other. -/
theorem decode_eq_halt_iff {w : Word} : decode w = .instr .halt ↔ w = 0xE000 := by
  constructor
  · intro h
    exact (encode_of_decode h).2.symm
  · rintro rfl
    exact decode_encode (i := .halt) rfl

theorem statusAfter_eq_halted_iff {i : Instr} : statusAfter i = .halted ↔ i = .halt := by
  cases i <;> simp [statusAfter]

theorem State.haltedByHalt_of_status_ne {s : State} (h : s.status ≠ .halted) : s.HaltedByHalt :=
  fun hs => absurd hs h

/-- Only a `halt` leaves `Halted`, and it leaves the entry that fetched it. -/
theorem State.haltedByHalt_executed {s : State} {i : Instr} (hf : s.arch.fetch = .instr i) :
    State.HaltedByHalt { s with arch := archAfter i s.arch, status := statusAfter i, hist := s.arch :: s.hist } := by
  intro hi
  obtain rfl := statusAfter_eq_halted_iff.mp hi
  exact ⟨s.arch, s.hist, rfl, hf, decode_eq_halt_iff.mp (Arch.fetch_instr.mp hf).2, rfl⟩

/-- Every step keeps that a `Halted` machine has executed a `halt`: a stopped machine stays as it is, a fault leaves
`Faulted`, and an instruction that executes was fetched from the state it pushes. -/
theorem State.HaltedByHalt.step {s t : State} (hs : s.HaltedByHalt) (h : step s = .next t) : t.HaltedByHalt := by
  rcases step_cases h with ⟨-, rfl⟩ | ⟨-, c, info, -, rfl⟩ | ⟨-, i, -, c, info, -, rfl⟩ | ⟨-, i, hf, -, rfl⟩
  · exact hs
  · exact State.haltedByHalt_of_status_ne (by simp)
  · exact State.haltedByHalt_of_status_ne (by simp)
  · exact State.haltedByHalt_executed hf

/-- A `REWIND` that pops an entry restores it and leaves `Halted` (R105, R106). -/
theorem State.exists_rewind_of_cons {s : State} {e : Arch} {h : List Arch} (hh : s.hist = e :: h) :
    ∃ u, s.rewind = (true, u) ∧ u.arch = e ∧ u.status ≠ .halted := by
  refine ⟨_, State.rewind_cons hh, rfl, ?_⟩
  dsimp only
  split <;> simp

theorem State.haltedByHalt_rewind {s : State} {e : Arch} {h : List Arch} (hh : s.hist = e :: h) :
    s.rewind.2.HaltedByHalt := by
  obtain ⟨u, hu, -, hne⟩ := State.exists_rewind_of_cons hh
  rw [hu]
  exact State.haltedByHalt_of_status_ne hne

theorem State.haltedByHalt_load (s : State) {words : List Word} (hw : Program.wellFormed words = true) :
    (s.load words).2.HaltedByHalt := by
  rw [State.load_accepted s hw]
  exact State.haltedByHalt_of_status_ne (by simp)

/-- Settles O37, by the induction over commands: beside the step, each command that changes registers, memory, history or
status leaves a status other than `Halted`. -/
theorem haltedMeansHaltExecuted : Obligations.HaltedMeansHaltExecuted :=
  ⟨fun _ _ hs h => hs.step h, fun _ _ _ _ hs h =>
    Completes.keeps (P := State.HaltedByHalt) (fun _ _ hs h => hs.step h)
      (fun _ _ _ => State.haltedByHalt_of_status_ne (by simp)) (fun s _ _ hw => s.haltedByHalt_load hw)
      (fun _ _ => State.haltedByHalt_of_status_ne (by simp)) (fun _ _ _ _ hh => State.haltedByHalt_rewind hh)
      (fun _ _ hs => hs) hs h⟩

/-! ### Targets -/

/-- A `STEP` at a pc without storage raises fault 1 with that pc (20_memory R44, 60_exceptions R115). -/
theorem exists_next_of_pc_beyond {s : State} (hs : s.stopped = false) (hpc : Config.memCap ≤ s.arch.pc.toNat) :
    ∃ t, step s = .next t ∧ FaultedFrom s t 1 s.arch.pc :=
  ⟨_, step_trap hs (Arch.fetch_trap.mpr (.inl ⟨rfl, rfl, hpc⟩)), faultedFrom_raise s .fetchAddress s.arch.pc⟩

/-- The target of a taken branch adds the two's complement offset to the next address, modulo 65536. -/
theorem toNat_branchTarget (a : Arch) (imm : Imm5) :
    ((branchTarget a imm).toNat : Int) = ((a.pc.toNat : Int) + 1 + imm.toInt) % 65536 := by
  have h : ((branchTarget a imm).toNat : Int) = ((a.pc + 1).toNat + imm.toInt) % 65536 :=
    toNat_aluAdd_sextImm (a.pc + 1) imm
  rw [h, toNat_pc_add_one]
  omega

/-- `beq` sets the pc and nothing else. -/
theorem archAfter_beq (a : Arch) (rx ry : Reg) (imm : Imm5) : archAfter (.beq rx ry imm) a =
    a.setPc (if a.reg rx = a.reg ry then branchTarget a imm else a.pc + 1) := by
  by_cases h : a.reg rx = a.reg ry <;> simp [archAfter, aluEqual, h, Arch.nextPc]

/-- Settles O17: `beq` only sets the pc, to one of the two targets. -/
theorem beqTargetAndFrame : Obligations.BeqTargetAndFrame := by
  intro s rx ry imm
  refine ⟨encode_beq rx ry imm, _, exec_of_noFault rfl, ?_⟩
  rw [archAfter_beq]
  refine ⟨?_, fun _ => rfl, fun _ => rfl, executedFrom_executed s .running _, exists_next_of_pc_beyond rfl⟩
  simp only [BitVec.toNat_inj, Arch.setPc_pc]
  split
  · exact toNat_branchTarget s.arch imm
  · rw [toNat_pc_add_one]
    rfl

/-- A read after the link is written: the link in the register written, register 0 excepted, and any other as before. -/
theorem toNat_reg_setReg_link (a : Arch) (ry q : Reg) : ((a.setReg ry (linkAddress a)).reg q).toNat =
    if q = ry ∧ ry ≠ .r0 then (a.pc.toNat + 1) % 65536 else (a.reg q).toNat := by
  rw [Arch.reg_setReg, apply_ite BitVec.toNat, linkAddress, toNat_pc_add_one]

/-- Settles O18: both the link register and the target are reads after the link is written. -/
theorem jalrLinkTargetAndFrame : Obligations.JalrLinkTargetAndFrame := by
  intro s rx ry
  have hlink := toNat_reg_setReg_link s.arch ry
  refine ⟨encode_jalr rx ry, _, exec_of_noFault rfl, (hlink ry).trans ?_, hlink rx,
    fun _ hr => RegFile.get_set_ne _ _ hr, fun _ => rfl, executedFrom_executed s .running _,
    exists_next_of_pc_beyond rfl⟩
  by_cases h0 : ry = .r0 <;> simp [h0]

/-! ### halt -/

/-- In `Halted` or `Faulted`, `RUN` is ignored (44_step_run R88). -/
theorem runReturns_stopped {s t : State} {r : RunResult} (hs : s.stopped = true) :
    RunReturns s r t ↔ r = .ignored ∧ t = s := by
  simp [RunReturns, hs]

/-- Settles O19: `halt` pushes the state before it and stops the machine, so the next `STEP` and `RUN` are ignored and
`REWIND` pops that state. -/
theorem haltStopsAndFrame : Obligations.HaltStopsAndFrame := by
  refine ⟨fun _ => decode_eq_halt_iff, fun s => ?_⟩
  have hexec := exec_of_noFault (i := .halt) (s := s) rfl
  refine ⟨_, hexec, toNat_pc_add_one _, fun _ => rfl, fun _ => rfl, executedFrom_executed s .halted _, fun hs hf => ?_,
    State.stepCommand_stopped rfl, (runReturns_stopped rfl).mpr ⟨rfl, rfl⟩, State.exists_rewind_of_cons rfl⟩
  rw [State.stepCommand_of_step ((step_instr hs hf).trans hexec), hs]
  rfl

end Sys2Proof.Machine
end

section
/-! PROOF. `STEP` line by line (44_step_run R85 to R90): it always answers, runs the instruction it fetched or raises
one of the four faults, is ignored in a stopped machine, and can be taken back by `REWIND` (45_host_commands R107). -/

namespace Sys2Proof.Machine

/-- Settles O24: a stopped machine answers its own state, and an accepted `STEP` has an effect. -/
theorem stepAlwaysAnswers : Obligations.StepAlwaysAnswers := by
  intro s
  cases hs : s.stopped with
  | true => exact ⟨s, step_stopped hs⟩
  | false =>
    cases s.arch.effect with
    | faults c info heq => exact ⟨_, (State.step_of_stepCommand (heq s rfl hs)).1⟩
    | executes i _ _ heq => exact ⟨_, (State.step_of_stepCommand (heq s rfl hs)).1⟩

/-- Settles O21: the status accepts a step, and the fetch yields `i`. -/
theorem stepRunsDecodedInstruction : Obligations.StepRunsDecodedInstruction := fun s _ hh hf hpc hd =>
  step_instr (s.not_stopped_iff.mpr ⟨hh, hf⟩) (Arch.fetch_instr.mpr ⟨hpc, hd⟩)

/-- Settles O23: a stopped machine is left as it is, and the result of an accepted `STEP` is that of the status left. -/
theorem stoppedMachineIgnoresStepAndRun : Obligations.StoppedMachineIgnoresStepAndRun := by
  refine ⟨fun s h => ?_, fun s h => ?_⟩
  · have hs := s.stopped_iff.mpr h
    exact ⟨step_stopped hs, State.stepCommand_stopped hs, fun _ _ => runReturns_stopped hs⟩
  · have hs : s.stopped = false := s.stopped_of_accepts h
    obtain ⟨t, ht⟩ := stepAlwaysAnswers s
    refine ⟨t.status.stepResult, t, ?_, Status.stepResult_ne_ignored _⟩
    simp [State.stepCommand_of_step ht, hs]

/-! ### The lines of R85 -/

section
variable {s : State} {c : FaultCause} {info : Word} (hs : s.stopped = false)
include hs

/-- Lines 2 and 4: a fetch that traps. -/
theorem State.exists_fault_of_fetch_trap (hf : s.arch.fetch = .trap c info) :
    ∃ t, s.stepCommand = .next (.fault, t) ∧ FaultedFrom s t c.code info :=
  ⟨_, State.stepCommand_of_raise hs (step_trap hs hf), faultedFrom_raise s c info⟩

/-- Line 5: an instruction that raises its fault. -/
theorem State.exists_fault_of_faultOf {i : Instr} (hf : s.arch.fetch = .instr i)
    (hq : faultOf i s.arch = some (c, info)) :
    ∃ t, s.stepCommand = .next (.fault, t) ∧ FaultedFrom s t c.code info := by
  have hstep : step s = .next (s.raise c info) := by rw [step_instr hs hf, exec_eq, hq]
  exact ⟨_, State.stepCommand_of_raise hs hstep, faultedFrom_raise s c info⟩

end

/-- An instruction raises no fault unless it is an `lw` or `sw` out of range. -/
theorem faultOf_eq_none_of_inRange {i : Instr} {a : Arch}
    (h : ∀ rx ry imm, i = .lw rx ry imm ∨ i = .sw rx ry imm → (effectiveAddress a ry imm).toNat < Config.memCap) :
    faultOf i a = none := by
  cases i with
  | lw rx ry imm => exact faultOf_lw_eq_none.mpr (h rx ry imm (.inl rfl))
  | sw rx ry imm => exact faultOf_sw_eq_none.mpr (h rx ry imm (.inr rfl))
  | add | nand | addi | beq | jalr | halt | noop => rfl

/-- Line 8: the status left by an instruction that executes. -/
theorem statusAfter_eq_ite (i : Instr) : statusAfter i = if i = .halt then .halted else .running := by
  split
  case isTrue h => exact statusAfter_eq_halted_iff.mpr h
  case isFalse h => exact (statusAfter_cases i).resolve_right (mt statusAfter_eq_halted_iff.mp h)

/-- Line 8: the result of an instruction that executes. -/
theorem stepResult_statusAfter (i : Instr) :
    (statusAfter i).stepResult = if i = .halt then .executedHalt else .executed := by
  rw [statusAfter_eq_ite, apply_ite Status.stepResult]
  rfl

/-- Settles O22, line by line: each condition fixes what is fetched and whether it raises a fault. -/
theorem stepFollowsItsAlgorithm : Obligations.StepFollowsItsAlgorithm := by
  intro s
  refine ⟨fun h => State.stepCommand_stopped (s.stopped_iff.mpr h), fun hh hf hpc => ?_, fun hh hf hpc => ?_⟩
  · exact State.exists_fault_of_fetch_trap (s.not_stopped_iff.mpr ⟨hh, hf⟩)
      (Arch.fetch_trap.mpr (.inl ⟨rfl, rfl, hpc⟩))
  have hs := s.not_stopped_iff.mpr ⟨hh, hf⟩
  have hfetch {i : Instr} (hd : decode (s.arch.readMem s.arch.pc) = .instr i) : s.arch.fetch = .instr i :=
    Arch.fetch_instr.mpr ⟨hpc, hd⟩
  refine ⟨fun hd => ?_, fun rx ry imm hd hea => ?_, fun rx ry imm hd hea => ?_, fun i hd hea => ?_⟩
  · exact State.exists_fault_of_fetch_trap hs (Arch.fetch_trap.mpr (.inr ⟨rfl, rfl, hpc, hd⟩))
  · exact State.exists_fault_of_faultOf hs (hfetch hd) (faultOf_lw_beyond hea)
  · exact State.exists_fault_of_faultOf hs (hfetch hd) (faultOf_sw_beyond hea)
  · have hexec := exec_of_noFault (s := s) (faultOf_eq_none_of_inRange hea)
    refine ⟨_, hexec, rfl, statusAfter_eq_ite i, ?_⟩
    simp [State.stepCommand_of_step ((step_instr hs (hfetch hd)).trans hexec), hs, stepResult_statusAfter]

/-! ### What a result says of the state left -/

/-- A `STEP` with result `Fault` has raised a fault and done nothing else. -/
theorem State.stepCommand_fault {s t : State} (h : s.stepCommand = .next (.fault, t)) :
    ∃ c info, t = s.raise c info := by
  cases hs : s.stopped with
  | true => cases (State.stepCommand_stopped hs).symm.trans h
  | false =>
    cases s.arch.effect with
    | faults c info heq =>
      cases (heq s rfl hs).symm.trans h
      exact ⟨c, info, rfl⟩
    | executes i _ _ heq =>
      have hr : (statusAfter i).stepResult = .fault :=
        congrArg Prod.fst (Host.Outcome.next.inj ((heq s rfl hs).symm.trans h))
      have hne := statusAfter_stepResult i
      simp [hr] at hne

/-- A `STEP` with result `ExecutedHalt` leaves `Halted`. -/
theorem State.status_of_executedHalt {s t : State} (h : s.stepCommand = .next (.executedHalt, t)) :
    t.status = .halted := by
  have hr := (State.step_of_stepCommand h).2
  split at hr
  · cases hr
  · cases ht : t.status <;> simp [ht, Status.stepResult] at hr ⊢

/-- Settles O48: the step that executed left the state before it as the newest entry. -/
theorem rewindUndoesStep : Obligations.RewindUndoesStep := by
  intro s t r h hr
  obtain ⟨i, -, -, rfl⟩ := State.stepCommand_executed h hr
  exact ⟨_, State.rewind_cons rfl, rfl, rfl, rfl⟩

end Sys2Proof.Machine
end

section
/-! PROOF. `RUN` (44_step_run R91 to R95): the loop, the loop under fuel and stepping behind the breakpoint test are the
same, what each result says, and that `REWIND` takes back what a `RUN` executed (45_host_commands R107). -/

namespace Sys2Proof.Machine

/-! ### One turn -/

theorem State.runTurn_of_bpHit {s : State} (hb : s.bpHit = true) :
    s.runTurn = .next (.done .breakpointHit { s with status := .stoppedAtBreakpoint }) := by
  simp [State.runTurn, hb]

section
variable {s t : State} (hb : s.bpHit = false)
include hb

theorem State.runTurn_of_executed (hc : s.stepCommand = .next (.executed, t)) : s.runTurn = .next (.again t) := by
  simp [State.runTurn, hb, hc]

theorem State.runTurn_of_executedHalt (hc : s.stepCommand = .next (.executedHalt, t)) :
    s.runTurn = .next (.done .halted t) := by
  simp [State.runTurn, hb, hc]

theorem State.runTurn_of_fault (hc : s.stepCommand = .next (.fault, t)) : s.runTurn = .next (.done .fault t) := by
  simp [State.runTurn, hb, hc]

end

/-! ### The loop, its fuel and its steps -/

/-- The loop that returns does so under some fuel: one unit for each turn. -/
theorem RunLoop.exists_fuel {s t : State} {r : RunResult} (h : RunLoop s r t) :
    ∃ n, State.runLoop n s = some (r, t) := by
  induction h with
  | done hd => exact ⟨1, by simp [State.runLoop_succ, hd]⟩
  | again ha _ ih =>
    obtain ⟨n, hn⟩ := ih
    exact ⟨n + 1, by simpa [State.runLoop_succ, ha] using hn⟩

/-- Executed steps, each behind the comparator, are turns of the loop that go round again. -/
theorem RunSteps.runLoop {n : Nat} {s u t : State} {r : RunResult} (h : RunSteps n s u) (hu : RunLoop u r t) :
    RunLoop s r t := by
  induction n generalizing s with
  | zero => exact (show u = s from h) ▸ hu
  | succ n ih =>
    obtain ⟨hb, w, hw, hrest⟩ := h
    exact .again (State.runTurn_of_executed hb hw) (ih hrest)

/-- `RUN` in a status that accepts a step is the loop. -/
theorem runReturns_of_not_stopped {s t : State} {r : RunResult} (hs : s.stopped = false) :
    RunReturns s r t ↔ RunLoop s r t := by
  simp [RunReturns, hs]

/-- Settles O39: the loop uses one unit of fuel a turn; under fuel it is some executed steps and the turn that ends it,
which are turns of the loop. -/
theorem runUnderFuelAgrees : Obligations.RunUnderFuelAgrees := by
  intro s t r
  cases hs : s.stopped with
  | true => simp [runReturns_stopped hs, State.run, hs, eq_comm]
  | false =>
    simp only [runReturns_of_not_stopped hs, State.run, hs, Bool.false_eq_true, if_false]
    refine ⟨RunLoop.exists_fuel, fun ⟨n, hn⟩ => ?_⟩
    obtain ⟨k, u, hk, -, hd⟩ := State.runLoop_eq_some n hs hn
    exact hk.runLoop (.done hd)

/-- Settles O38: the loop under fuel ends after some executed steps with one of three turns, and each of these turns
ends the loop. -/
theorem runIsSteppingBehindTheBreakpointTest : Obligations.RunIsSteppingBehindTheBreakpointTest := by
  intro s t r
  refine ⟨runReturns_stopped, fun hs => ?_⟩
  rw [runReturns_of_not_stopped hs]
  constructor
  · intro h
    obtain ⟨n, hn⟩ := h.exists_fuel
    obtain ⟨k, u, hk, hu, hd⟩ := State.runLoop_eq_some n hs hn
    refine ⟨k, u, hk, ?_⟩
    rcases State.runTurn_done_cases hu hd with ⟨hr, hb, ht⟩ | ⟨hr, hb, hc⟩ | ⟨hr, hb, hc⟩
    · exact .inl ⟨hb, hr, ht⟩
    · exact .inr (.inl ⟨hb, hr, hc⟩)
    · exact .inr (.inr ⟨hb, hr, hc⟩)
  · rintro ⟨n, u, hn, ⟨hb, rfl, rfl⟩ | ⟨hb, rfl, hc⟩ | ⟨hb, rfl, hc⟩⟩
    · exact hn.runLoop (.done (State.runTurn_of_bpHit hb))
    · exact hn.runLoop (.done (State.runTurn_of_executedHalt hb hc))
    · exact hn.runLoop (.done (State.runTurn_of_fault hb hc))

/-! ### What a result says -/

/-- Settles O40, by the three ways an accepted `RUN` ends: the last step or the comparator gives the status. -/
theorem runResultSaysTheStatus : Obligations.RunResultSaysTheStatus := by
  intro s t r h
  cases hs : s.stopped with
  | true =>
    obtain ⟨rfl, -⟩ := (runReturns_stopped hs).mp h
    simp
  | false =>
    obtain ⟨n, u, hn, ⟨hb, rfl, rfl⟩ | ⟨-, rfl, hc⟩ | ⟨-, rfl, hc⟩⟩ :=
      ((runIsSteppingBehindTheBreakpointTest s t r).2 hs).mp h
    · have hbt : State.bpHit { u with status := .stoppedAtBreakpoint } = true := hb
      simp [hbt]
    · have hlast : ∃ n u, RunSteps n s u ∧ u.stepCommand = .next (.executedHalt, t) := ⟨n, u, hn, hc⟩
      simp [State.status_of_executedHalt hc, hlast]
    · have hlast : ∃ n u, RunSteps n s u ∧ u.stepCommand = .next (.fault, t) := ⟨n, u, hn, hc⟩
      obtain ⟨c, info, rfl⟩ := State.stepCommand_fault hc
      simp [hlast]

/-- `STEP` does not consult the breakpoint (R89): its effect depends on the registers, memory and pc alone. -/
theorem State.stepCommand_bpValid {s t : State} {r : StepResult} (b : Bool) (hs : s.stopped = false)
    (h : s.stepCommand = .next (r, t)) :
    State.stepCommand { s with bpValid := b } = .next (r, { t with bpValid := b }) := by
  cases s.arch.effect with
  | faults c info heq =>
    rw [heq { s with bpValid := b } rfl hs]
    cases (heq s rfl hs).symm.trans h
    rfl
  | executes i _ _ heq =>
    rw [heq { s with bpValid := b } rfl hs]
    cases (heq s rfl hs).symm.trans h
    rfl

/-- Settles O41: the first turn ends the loop at the comparator, and `STEP` does not consult it. -/
theorem breakpointStopsRunButNotStep : Obligations.BreakpointStopsRunButNotStep := by
  intro s hs hb
  have hturn := State.runTurn_of_bpHit hb
  refine ⟨fun r t => ?_, fun r t h => State.stepCommand_bpValid false hs h⟩
  rw [runReturns_of_not_stopped hs]
  constructor
  · intro h
    cases h with
    | done hd =>
      cases hturn.symm.trans hd
      exact ⟨rfl, rfl⟩
    | again ha => cases hturn.symm.trans ha
  · rintro ⟨rfl, rfl⟩
    exact .done hturn

/-! ### Rewinding a RUN -/

/-- `n` successful `REWIND`s from `t` restore the registers, memory, pc and history of `s`. -/
def State.RewindsBack (t : State) (n : Nat) (s : State) : Prop :=
  ∃ u, RewindsTo n t u ∧ u.arch = s.arch ∧ u.hist = s.hist

theorem State.rewindsBack_zero {t s : State} (ha : t.arch = s.arch) (hh : t.hist = s.hist) : t.RewindsBack 0 s :=
  ⟨t, rfl, ha, hh⟩

/-- One more `REWIND` after `n` of them. -/
theorem RewindsTo.succ {n : Nat} {s t u : State} (h : RewindsTo n s t) (ht : t.rewind = (true, u)) :
    RewindsTo (n + 1) s u := by
  induction n generalizing s with
  | zero =>
    obtain rfl : t = s := h
    exact ⟨u, ht, rfl⟩
  | succ n ih =>
    obtain ⟨v, hv, hrest⟩ := h
    exact ⟨v, hv, ih hrest⟩

/-- Each successful `REWIND` pops one entry. -/
theorem RewindsTo.depth {n : Nat} {s t : State} (h : RewindsTo n s t) : s.hist.length = t.hist.length + n := by
  induction n generalizing s with
  | zero =>
    obtain rfl : t = s := h
    rfl
  | succ n ih =>
    obtain ⟨v, hv, hrest⟩ := h
    have hpop := State.rewind_ok_depth (s := s) (by rw [hv])
    rw [hv, ih hrest] at hpop
    exact hpop.symm

/-- A step that executed costs one more `REWIND`: the state reached has the entry of that step on top. -/
theorem State.RewindsBack.before_step {t s w : State} {n : Nat} {r : StepResult} (h : t.RewindsBack n w)
    (hc : s.stepCommand = .next (r, w)) (hr : r = .executed ∨ r = .executedHalt) : t.RewindsBack (n + 1) s := by
  obtain ⟨i, -, -, rfl⟩ := State.stepCommand_executed hc hr
  obtain ⟨u, hu, -, hh⟩ := h
  exact ⟨_, hu.succ (State.rewind_cons hh), rfl, rfl⟩

/-- Each executed step of a `RUN` costs one more `REWIND`. -/
theorem RunSteps.rewindsBack {n m : Nat} {s u t : State} (h : RunSteps n s u) (ht : t.RewindsBack m u) :
    t.RewindsBack (m + n) s := by
  induction n generalizing s with
  | zero =>
    obtain rfl : u = s := h
    exact ht
  | succ n ih =>
    obtain ⟨-, w, hw, hrest⟩ := h
    exact (ih hrest).before_step hw (.inl rfl)

/-- Some number of `REWIND`s takes back a `RUN` that returned. -/
theorem RunReturns.exists_rewindsBack {s t : State} {r : RunResult} (h : RunReturns s r t) :
    ∃ n, t.RewindsBack n s := by
  cases hs : s.stopped with
  | true =>
    obtain ⟨-, rfl⟩ := (runReturns_stopped hs).mp h
    exact ⟨0, State.rewindsBack_zero rfl rfl⟩
  | false =>
    obtain ⟨n, u, hn, ⟨-, -, rfl⟩ | ⟨-, -, hc⟩ | ⟨-, -, hc⟩⟩ :=
      ((runIsSteppingBehindTheBreakpointTest s t r).2 hs).mp h
    · exact ⟨_, hn.rewindsBack (State.rewindsBack_zero rfl rfl)⟩
    · exact ⟨_, hn.rewindsBack ((State.rewindsBack_zero rfl rfl).before_step hc (.inr rfl))⟩
    · obtain ⟨c, info, rfl⟩ := State.stepCommand_fault hc
      exact ⟨_, hn.rewindsBack (State.rewindsBack_zero rfl rfl)⟩

/-- Settles O42: the number of `REWIND`s that takes a `RUN` back is the number of entries it pushed, since each pops
one. -/
theorem rewindsUndoRun : Obligations.RewindsUndoRun := by
  intro s t r h
  obtain ⟨n, u, hu, ha, hh⟩ := h.exists_rewindsBack
  have hdepth : t.hist.length = s.hist.length + n := hh ▸ hu.depth
  rw [hdepth, Nat.add_sub_cancel_left]
  exact ⟨Nat.le_add_right _ _, u, hu, ha, hh⟩

end Sys2Proof.Machine
end

section
/-! PROOF. The host commands that execute no instruction (45_host_commands): what LOAD, RESET, REWIND and SETBP leave, field
by field, and what DISASM answers. -/

namespace Sys2Proof.Machine

/-! ### LOAD (R100, R101) -/

theorem program_wellFormed_iff {words : List Word} : Program.wellFormed words = true ↔ words.length ≤ 16384 :=
  decide_eq_true_iff

theorem program_wellFormed_false_iff {words : List Word} : Program.wellFormed words = false ↔ 16384 < words.length := by
  rw [← Bool.not_eq_true, program_wellFormed_iff, Nat.not_le]

/-- A memory filled from `words` reads them from address 0 on, then zeros (R36). -/
theorem Arch.readMem_of_mem_eq_ofWords {a : Arch} {words : List Word}
    (h : a.mem = Memory.ofWords Config.loadBase words) (x : Word) : a.readMem x = words.getD x.toNat 0 := by
  have hread := Memory.read_ofWords words Config.loadBase x.toNat
  rwa [Nat.zero_add, ← h] at hread

/-- Settles O43: the program fits, so LOAD is accepted, and memory reads as the program then zeros. -/
theorem loadReplacesProgram : Obligations.LoadReplacesProgram := by
  intro s words hfits
  refine ⟨_, State.load_accepted s (program_wellFormed_iff.mpr hfits), fun x _ => ?memory, rfl, fun _ => rfl, rfl, rfl,
    rfl, rfl, rfl, rfl, rfl⟩
  case memory => exact Arch.readMem_of_mem_eq_ofWords rfl x

/-- Settles O44: a program that does not fit is refused. -/
theorem loadRefusesTooLongProgram : Obligations.LoadRefusesTooLongProgram := fun s _ hlong =>
  State.load_refused s (program_wellFormed_false_iff.mpr hlong)

/-! ### RESET (R103, R104) -/

/-- Settles O45: RESET fills memory from IMAGE as LOAD does, whatever the length of IMAGE, and zeroes the registers. -/
theorem resetRebuildsFromImage : Obligations.ResetRebuildsFromImage := fun s =>
  ⟨RegFile.get_zero, rfl, fun x _ => Arch.readMem_of_mem_eq_ofWords (congrArg Arch.mem s.resetCommand_arch) x, rfl, rfl, rfl,
    rfl, rfl, rfl, rfl⟩

/-- Settles O46: where the image fits, LOAD(IMAGE) is accepted; it fills the same memory, which is canonical, and writes
every field that RESET does but the registers. -/
theorem resetIsLoadOfImage : Obligations.ResetIsLoadOfImage := by
  intro s hfits
  have hwf := program_wellFormed_iff.mpr hfits
  rw [State.load_accepted s hwf]
  exact ⟨rfl, Memory.wf_ofWords hwf⟩

/-! ### REWIND (R105, R106) -/

/-- Settles O47: REWIND fails on an empty history and pops the newest entry of any other; the status is the comparator's
answer on the restored pc. -/
theorem rewindPopsOneEntry : Obligations.RewindPopsOneEntry := by
  refine ⟨fun _ => State.rewind_nil, fun s e h hh => ?_⟩
  refine ⟨_, State.rewind_cons hh, rfl, rfl, rfl, rfl, ?status, rfl, rfl, rfl⟩
  case status => simp only [Bool.and_eq_true, decide_eq_true_eq]

/-! ### SETBP (R108) -/

/-- Settles O50: SETBP writes both breakpoint registers, so nothing of an earlier breakpoint is left, and no other field. -/
theorem setBreakpointReplaces : Obligations.SetBreakpointReplaces := fun s a =>
  ⟨s.setBreakpoint_bpValid a, s.setBreakpoint_bpAddr a, rfl, fun _ => rfl⟩

/-! ### DISASM (R110) -/

theorem State.disasm_of_lt (s : State) {a : Word} (h : a.toNat < Config.memCap) :
    s.disasm a = some ⟨a, s.arch.readMem a, decode (s.arch.readMem a)⟩ :=
  if_pos ((inRange_iff a).mpr h)

theorem State.disasm_of_le (s : State) {a : Word} (h : Config.memCap ≤ a.toNat) : s.disasm a = none := by
  rw [State.disasm, (inRange_false_iff a).mpr h]
  rfl

/-- Settles O51: DISASM completes with what `State.disasm` answers and leaves the state it was given in. -/
theorem disassembleIsReadOnly : Obligations.DisassembleIsReadOnly := by
  refine fun s a => ⟨⟨_, _, completes_disasm.mpr ⟨rfl, rfl⟩⟩, fun resp t h => ?_⟩
  obtain ⟨rfl, rfl⟩ := completes_disasm.mp h
  exact ⟨rfl, fun hlt => by rw [State.disasm_of_lt t hlt], fun hle => by rw [State.disasm_of_le t hle]⟩

end Sys2Proof.Machine
end

section
/-! PROOF. Faults (60_exceptions R115, R119, R121): the only ones a step raises, that they are precise, what `REWIND` does
after one, and the status each command leaves (R124). -/

namespace Sys2Proof.Machine

/-! ### A step that faults (R115, R119) -/

section
variable {s t : State} (hs : s.stopped = false) (h : step s = .next t) (hf : t.status = .faulted)
include hs h hf

/-- A step that leaves `Faulted` has raised the fault of its fetch, or of the instruction it fetched. -/
theorem step_faulted_cases : ∃ c info, t = s.raise c info ∧
    (s.arch.fetch = .trap c info ∨ ∃ i, s.arch.fetch = .instr i ∧ faultOf i s.arch = some (c, info)) := by
  rcases step_cases h with ⟨hst, -⟩ | ⟨-, c, info, hc, rfl⟩ | ⟨-, i, hi, c, info, hc, rfl⟩ | ⟨-, i, -, -, rfl⟩
  · simp [hs] at hst
  · exact ⟨c, info, rfl, .inl hc⟩
  · exact ⟨c, info, rfl, .inr ⟨i, hi, hc⟩⟩
  · rcases statusAfter_cases i with hi | hi <;> simp [hi] at hf

/-- The rows of the table of R115, each with its condition, code and value. -/
theorem step_faulted_rows :
    (t.faultCause.code = 1 ∧ t.faultInfo = s.arch.pc ∧ Config.memCap ≤ s.arch.pc.toNat) ∨
    (t.faultCause.code = 2 ∧ t.faultInfo = s.arch.readMem s.arch.pc ∧ s.arch.pc.toNat < Config.memCap ∧
      decode t.faultInfo = .reserved) ∨
    (t.faultCause.code = 3 ∧ Config.memCap ≤ t.faultInfo.toNat ∧ ∃ rx ry imm, s.arch.fetch = .instr (.lw rx ry imm) ∧
      t.faultInfo = effectiveAddress s.arch ry imm) ∨
    (t.faultCause.code = 4 ∧ Config.memCap ≤ t.faultInfo.toNat ∧ ∃ rx ry imm, s.arch.fetch = .instr (.sw rx ry imm) ∧
      t.faultInfo = effectiveAddress s.arch ry imm) := by
  obtain ⟨c, info, rfl, htrap | ⟨i, hi, hq⟩⟩ := step_faulted_cases hs h hf
  · rcases Arch.fetch_trap.mp htrap with ⟨rfl, hinfo, hpc⟩ | ⟨rfl, hinfo, hpc, hd⟩
    · exact .inl ⟨rfl, hinfo, hpc⟩
    · exact .inr (.inl ⟨rfl, hinfo, hpc, hd⟩)
  · rcases faultOf_eq_some hq with ⟨rx, ry, imm, rfl, rfl, hea, hr⟩ | ⟨rx, ry, imm, rfl, rfl, hea, hr⟩
    · exact .inr (.inr (.inl ⟨rfl, hr, rx, ry, imm, hi, hea⟩))
    · exact .inr (.inr (.inr ⟨rfl, hr, rx, ry, imm, hi, hea⟩))

end

/-! ### The status that the other commands leave (R124) -/

theorem State.load_status (s : State) (words : List Word) :
    ((s.load words).1 = true ∧ (s.load words).2.status = .loaded) ∨
    ((s.load words).1 = false ∧ (s.load words).2.status = s.status) := by
  cases hw : Program.wellFormed words with
  | true => rw [State.load_accepted s hw]; exact .inl ⟨rfl, rfl⟩
  | false => rw [State.load_refused s hw]; exact .inr ⟨rfl, rfl⟩

/-- `REWIND` leaves the comparator's answer on the restored pc (R106), or fails and leaves the status. -/
theorem State.rewind_status (s : State) :
    (s.rewind.1 = true ∧ s.hist ≠ [] ∧
      s.rewind.2.status = if s.rewind.2.bpHit = true then .stoppedAtBreakpoint else .running) ∨
    (s.rewind.1 = false ∧ s.hist = [] ∧ s.rewind.2.status = s.status) := by
  cases hh : s.hist with
  | nil => rw [State.rewind_nil hh]; exact .inr ⟨rfl, rfl, rfl⟩
  | cons e l => rw [State.rewind_cons hh]; exact .inl ⟨rfl, List.cons_ne_nil e l, rfl⟩

/-- Settles O25: a step raises a fault of the table, and each command but `STEP` and `RUN` leaves a status it names or the
status it finds. -/
theorem faultsAreTheTabledOnes : Obligations.FaultsAreTheTabledOnes := by
  refine ⟨fun s t => step_faulted_rows, fun c s resp t h hs hf => ?_⟩
  cases c with
  | step => exact .inl rfl
  | run => exact .inr rfl
  | load words =>
    obtain ⟨-, rfl⟩ := completes_load.mp h
    rcases s.load_status words with ⟨-, hst⟩ | ⟨-, hst⟩
    · cases hf.symm.trans hst
    · exact absurd (hst.symm.trans hf) hs
  | reset =>
    obtain ⟨-, rfl⟩ := completes_reset.mp h
    cases hf
  | rewind =>
    obtain ⟨-, rfl⟩ := completes_rewind.mp h
    rcases s.rewind_status with ⟨-, -, hst⟩ | ⟨-, -, hst⟩
    · rw [hf] at hst
      split at hst <;> cases hst
    · exact absurd (hst.symm.trans hf) hs
  | setbp a =>
    obtain ⟨-, rfl⟩ := completes_setbp.mp h
    exact absurd hf hs
  | disasm a =>
    obtain ⟨-, rfl⟩ := completes_disasm.mp h
    exact absurd hf hs

/-- Settles O26: the step is `State.raise`, which ends an enclosing `RUN` in its turn and stops the machine. -/
theorem faultsArePrecise : Obligations.FaultsArePrecise := by
  intro s t hs h hf
  obtain ⟨c, info, rfl, -⟩ := step_faulted_cases hs h hf
  have hc := State.stepCommand_of_raise hs h
  exact ⟨rfl, hc, fun hb => (runReturns_of_not_stopped hs).mpr (.done (State.runTurn_of_fault hb hc)), step_stopped rfl,
    (runReturns_stopped rfl).mpr ⟨rfl, rfl⟩⟩

/-- Settles O49: the fault has kept the history, so `REWIND` pops the entry of the last executed step, if there is one. -/
theorem rewindAfterFaultUndoesLastExecuted : Obligations.RewindAfterFaultUndoesLastExecuted := by
  intro s t h
  obtain ⟨c, info, rfl⟩ := State.stepCommand_fault h
  refine ⟨fun hh => State.rewind_nil hh, fun e l hh => ?_⟩
  obtain ⟨u, hu, ha, hl, hcause, hinfo, hst, -⟩ := rewindPopsOneEntry.2 (s.raise c info) e l hh
  refine ⟨u, hu, ha, hl, hcause, hinfo, ?_⟩
  rw [hst]
  split <;> simp

/-! ### The transitions (R124) -/

theorem State.accepts_of_not_stopped {s : State} (hs : s.stopped = false) : s.status.accepts := by
  obtain ⟨hh, hf⟩ := s.not_stopped_iff.mp hs
  cases hst : s.status with
  | loaded => exact .inl rfl
  | running => exact .inr (.inl rfl)
  | stoppedAtBreakpoint => exact .inr (.inr rfl)
  | halted => exact absurd hst hh
  | faulted => exact absurd hst hf

/-- The column of `STEP`. -/
theorem State.step_status {s t : State} (h : step s = .next t) :
    ((s.status = .halted ∨ s.status = .faulted) ∧ t.status = s.status) ∨
    (s.status.accepts ∧ (t.status = .running ∨ t.status = .halted ∨ t.status = .faulted)) := by
  rcases step_cases h with ⟨hs, rfl⟩ | ⟨hs, c, info, -, rfl⟩ | ⟨hs, i, -, c, info, -, rfl⟩ | ⟨hs, i, -, -, rfl⟩
  · exact .inl ⟨t.stopped_iff.mp hs, rfl⟩
  · exact .inr ⟨State.accepts_of_not_stopped hs, .inr (.inr rfl)⟩
  · exact .inr ⟨State.accepts_of_not_stopped hs, .inr (.inr rfl)⟩
  · exact .inr ⟨State.accepts_of_not_stopped hs, (statusAfter_cases i).imp_right .inl⟩

/-- The column of `RUN`. -/
theorem RunReturns.status {s t : State} {r : RunResult} (h : RunReturns s r t) :
    ((s.status = .halted ∨ s.status = .faulted) ∧ t.status = s.status) ∨
    (s.status.accepts ∧ (t.status = .stoppedAtBreakpoint ∨ t.status = .halted ∨ t.status = .faulted) ∧
      (s.bpHit = true → t.status = .stoppedAtBreakpoint)) := by
  cases hs : s.stopped with
  | true =>
    obtain ⟨-, rfl⟩ := (runReturns_stopped hs).mp h
    exact .inl ⟨t.stopped_iff.mp hs, rfl⟩
  | false =>
    refine .inr ⟨State.accepts_of_not_stopped hs, ?_, fun hb => ?_⟩
    · obtain ⟨hhalt, hbp, hfault, hign⟩ := runResultSaysTheStatus s t r h
      cases r with
      | halted => exact .inr (.inl (hhalt rfl).1)
      | breakpointHit => exact .inl (hbp rfl).1
      | fault => exact .inr (.inr (hfault rfl).1)
      | ignored => simp [hs] at hign
    · rw [(((breakpointStopsRunButNotStep s hs hb).1 r t).mp h).2]

/-- Settles O52, column by column; the invariant rules out a `REWIND` that succeeds in `Loaded` or fails in `Halted`. -/
theorem statusTransitions : Obligations.StatusTransitions := by
  intro s t resp hinv
  refine ⟨fun words h => ?load, fun h => ?reset, fun h => ?step, fun h => ?run, fun h => ?rewind, fun a h => ?keep⟩
  case load =>
    obtain ⟨rfl, rfl⟩ := completes_load.mp h
    simpa using s.load_status words
  case reset =>
    obtain ⟨-, rfl⟩ := completes_reset.mp h
    rfl
  case step =>
    obtain ⟨r, -, hc⟩ := completes_step.mp h
    exact State.step_status (State.step_of_stepCommand hc).1
  case run =>
    obtain ⟨n, r, -, hr⟩ := completes_run.mp h
    exact ((runUnderFuelAgrees s t r).mpr ⟨n, hr⟩).status
  case rewind =>
    obtain ⟨rfl, rfl⟩ := completes_rewind.mp h
    rcases s.rewind_status with ⟨hok, hh, hst⟩ | ⟨hok, hh, hst⟩
    · exact .inl ⟨congrArg Response.ok hok, mt hinv.loaded_empty hh, hst⟩
    · exact .inr ⟨congrArg Response.ok hok, fun hs => hinv.halted_nonempty hs hh, hst⟩
  case keep =>
    rcases h with h | h
    · obtain ⟨-, rfl⟩ := completes_setbp.mp h
      rfl
    · obtain ⟨-, rfl⟩ := completes_disasm.mp h
      rfl

end Sys2Proof.Machine
end

section
/-! PROOF. The power-on state (70_reset_and_hazards R136), and the commands that bring a machine back to it. -/

namespace Sys2Proof.Machine

/-- `RESET` writes every field but `IMAGE` and the breakpoint (R103), so it answers the power-on state exactly where
those three have their power-on values. -/
theorem State.resetCommand_eq_reset_iff {s : State} :
    s.resetCommand = State.reset ↔ s.image = [] ∧ s.bpValid = false ∧ s.bpAddr = 0 := by
  constructor
  · intro h
    exact ⟨congrArg State.image h, congrArg State.bpValid h, congrArg State.bpAddr h⟩
  · rintro ⟨himage, hvalid, haddr⟩
    rw [State.resetCommand, himage, hvalid, haddr]
    rfl

/-- Settles O3: the empty program fits, so LOAD is accepted and leaves an empty IMAGE and no breakpoint; `bp_addr`, which
neither command writes, is 0 by hypothesis. -/
theorem powerOnState : Obligations.PowerOnState := by
  refine ⟨⟨RegFile.get_zero, rfl, fun x => Memory.read_nil x.toNat, rfl, rfl, rfl, rfl, rfl, rfl, rfl⟩, fun s haddr => ?_⟩
  rw [State.load_accepted s (program_wellFormed_iff.mpr (Nat.zero_le _))]
  exact ⟨rfl, State.resetCommand_eq_reset_iff.mpr ⟨rfl, rfl, haddr⟩⟩

end Sys2Proof.Machine
end

section
/-! PROOF. The model's own way of placing a Word where the next `STEP` fetches it (log entry 6): the placed state accepts
a step, and its fetch reads that Word (44_step_run R85, 20_memory R44). -/

namespace Sys2Proof

theorem decodeTableWord_eq_some {nbits w : Nat} {i : Instr} :
    decodeTableWord nbits w = some i ↔ decode (BitVec.ofNat 16 (w % 2 ^ nbits)) = .instr i := by
  unfold decodeTableWord
  split <;> simp [*]

namespace Machine

/-- A stopped machine is made `Running`. -/
theorem State.placeWord_not_stopped (s : State) (w : Word) : (s.placeWord w).stopped = false := by
  cases hs : s.stopped with
  | true =>
    rw [State.placeWord, hs]
    rfl
  | false =>
    rw [State.placeWord, hs]
    exact hs

/-- The Word is written at the new pc, which has storage: it is the old pc, or RESET_PC where the old one has none. -/
theorem State.placeWord_arch (s : State) (w : Word) :
    ∃ pc, inRange pc = true ∧ (s.placeWord w).arch = (s.arch.setPc pc).writeMem pc w := by
  refine ⟨if inRange s.arch.pc then s.arch.pc else Config.resetPc, ?_, ?_⟩
  · split
    case isTrue h => exact h
    case isFalse => rfl
  · cases hs : s.stopped <;> simp [State.placeWord, hs]

/-- From a canonical memory, the next fetch yields what the placed Word decodes to. -/
theorem State.fetch_placeWord {s : State} {w : Word} {i : Instr} (hm : s.arch.mem.wf = true) (hd : decode w = .instr i) :
    (s.placeWord w).arch.fetch = .instr i := by
  obtain ⟨pc, hpc, harch⟩ := s.placeWord_arch w
  have hread : ((s.arch.setPc pc).writeMem pc w).readMem pc = w := Arch.readMem_writeMem_self pc w hm
  rw [harch]
  exact Arch.fetch_instr.mpr ⟨(inRange_iff pc).mp hpc, (congrArg decode hread).trans hd⟩

/-- Settles O56: the placed state is not stopped, and it fetches the instruction. -/
theorem placedWordRunsNext : Obligations.PlacedWordRunsNext := fun s _ _ hm hd =>
  step_instr (s.placeWord_not_stopped _) (State.fetch_placeWord hm (decodeTableWord_eq_some.mp hd))

end Machine
end Sys2Proof
end
